-- ==== Sys2Proof/Word.lean ====
section
/-! DEFINITION. The machine's word types (00_scope.md rule R4, 10_state.md rule R10): one abbreviation
for each width the spec names, so that the BitVec lemmas apply to all of them. -/

namespace Sys2Proof

/-- An 8-bit value: a general register, an ALU operand or result, a byte of memory (`XLEN`, rule R4). -/
abbrev Byte := BitVec 8

/-- A 16-bit instruction word; bit 15 is its most significant bit (`ILEN`, rules R4, R90). -/
abbrev Word := BitVec 16

/-- A 16-bit memory address (`ADDR_WIDTH`, rule R4). -/
abbrev Addr := BitVec 16

/-- The 17-bit program counter's contents (`PC_WIDTH`, rules R4, R13). -/
abbrev PcWord := BitVec 17

/-- A 4-bit register field of an instruction (`REGFIELD_WIDTH`, rule R4). -/
abbrev RegIndex := BitVec 4

/-- The tag of an address or of a cache line, `address div 64` (`TAG_WIDTH`, rules R4, R17, R40). -/
abbrev Tag := BitVec 10

/-- The number of a cache line, `address mod 64` (rules R17, R40). -/
abbrev LineIndex := BitVec 6

/-- The place of a byte in its 4-byte block, `address mod 4` (rule R40). -/
abbrev Offset := BitVec 2

end Sys2Proof
end

