-- ==== Sys2Proof/Syntax.lean ====
section
/-! DEFINITION. The instructions as syntax: one constructor for every mnemonic of spec/opcode_table.json,
which is one for every arm of `DecodeWord` (30_encoding.md rule R94). The table gives MOVM two rows and
SKIP three only because a mask cannot say `fd = 0 or 8..15` or `op = 5..15` in one row (rule R103); the
rows of one mnemonic share one rule and one meaning, so they share a constructor, whose fields hold every
bit in which their words differ (DESIGN CHOICE, log entry 4, safe). -/

namespace Sys2Proof

/-- An instruction with every field its word holds. -/
inductive Instr where
  /-- HALT0, the zero word `0x0000` (rule R145). -/
  | halt0
  /-- ADD, format R: two source fields and the ignored format flag (rules R91, R97, R114). -/
  | add (fa fb : RegIndex) (fmt : BitVec 4)
  /-- SUB, format R: minuend field, subtrahend field, format flag (rule R115). -/
  | sub (fa fb : RegIndex) (fmt : BitVec 4)
  /-- MUL, format R (rule R116). -/
  | mul (fa fb : RegIndex) (fmt : BitVec 4)
  /-- DIV, format R: dividend field, divisor field, format flag (rule R117). -/
  | div (fa fb : RegIndex) (fmt : BitVec 4)
  /-- MOVM, format M, memory form: the field that is the address, and the immediate (rules R95, R132). -/
  | movm (fd : BitVec 4) (imm8 : Byte)
  /-- MOVI, format M, register form: the destination register and the immediate (rules R95, R131). -/
  | movi (fd : RegIndex) (imm8 : Byte)
  /-- SKIP, format X: an unrecognised opcode and the twelve ignored bits (rules R91, R148). -/
  | skip (op : BitVec 4) (ignored : BitVec 12)
  deriving DecidableEq, Repr

end Sys2Proof
end

