-- ==== Sys2Proof/WellFormed.lean ====
section
/-! DEFINITION. Which terms of `Instr` some 16-bit word stands for (30_encoding.md rules R94, R95). -/

namespace Sys2Proof

/-- The term is what `DecodeWord` answers for some word: ADD is not the zero word (rule R94), MOVI's field
selects a register and MOVM's does not (rule R95), and SKIP's opcode is one of 5 to 15 (rule R148). What the machine
does with any other term, which no word stands for, is log entry 8 (DESIGN CHOICE, safe). -/
def Instr.wf : Instr → Bool
  | .halt0 => true
  | .add fa fb fmt => !(fa == 0 && fb == 0 && fmt == 0)
  | .sub _ _ _ => true
  | .mul _ _ _ => true
  | .div _ _ _ => true
  | .movm fd _ => fd == 0 || decide (8 ≤ fd.toNat)
  | .movi fd _ => decide (1 ≤ fd.toNat) && decide (fd.toNat ≤ 7)
  | .skip op _ => decide (5 ≤ op.toNat)

end Sys2Proof
end

