-- ==== Sys2Proof/Decode.lean ====
section
/-! DEFINITION. The decoder and, after it, the encoder (30_encoding.md). Decoding is total on every 16-bit
word (rule R94) and reads nothing but the word (rule R99); on bytes it rejects, by name, only a list too
short to hold an instruction. -/

namespace Sys2Proof

/-! ### Fields of the word (rule R92) -/

/-- `op = w[15:12]`. -/
def opField (w : Word) : BitVec 4 := w.extractLsb' 12 4
/-- `fa = w[11:8]` (format R). -/
def faField (w : Word) : RegIndex := w.extractLsb' 8 4
/-- `fb = w[7:4]` (format R). -/
def fbField (w : Word) : RegIndex := w.extractLsb' 4 4
/-- `fmt = w[3:0]` (format R). -/
def fmtField (w : Word) : BitVec 4 := w.extractLsb' 0 4
/-- `fd = w[11:8]` (format M, the same bits as `fa`). -/
def fdField (w : Word) : BitVec 4 := w.extractLsb' 8 4
/-- `imm8 = w[7:0]` (format M). -/
def imm8Field (w : Word) : Byte := w.extractLsb' 0 8
/-- `w[11:0]`, the ignored bits of format X (rule R91). -/
def ignoredField (w : Word) : BitVec 12 := w.extractLsb' 0 12

/-- The range test that selects MOV's register form, `1 <= fd <= 7` (rules R95, R130). -/
def movSelectsRegister (fd : BitVec 4) : Bool := decide (1 ≤ fd.toNat) && decide (fd.toNat ≤ 7)

/-- `DecodeWord(w)` of rule R94: the zero test first, then the opcode, then MOV's form. -/
def decodeWord (w : Word) : Instr :=
  if w = 0x0000#16 then .halt0
  else if opField w = 0 then .add (faField w) (fbField w) (fmtField w)
  else if opField w = 1 then .sub (faField w) (fbField w) (fmtField w)
  else if opField w = 2 then .mul (faField w) (fbField w) (fmtField w)
  else if opField w = 3 then .div (faField w) (fbField w) (fmtField w)
  else if opField w = 4 then
    if movSelectsRegister (fdField w) then .movi (fdField w) (imm8Field w)
    else .movm (fdField w) (imm8Field w)
  else .skip (opField w) (ignoredField w)

/-- Why a list of bytes gives no instruction. -/
inductive DecodeError where
  /-- Fewer than the two bytes every instruction has (rule R90). The machine never meets it: `fetch` always
  has two bytes. -/
  | truncated
  deriving DecidableEq, Repr

/-- The first instruction of a list of bytes, high byte first (rules R59, R90), and the bytes after it. -/
def decodeBytes : List Byte → Except DecodeError (Instr × List Byte)
  | hi :: lo :: rest => .ok (decodeWord (hi ++ lo), rest)
  | _ => .error .truncated

/-! ### The opcode table (rule R103) -/

/-- A row of spec/opcode_table.json: a word matches when its bits under the mask are the pattern. -/
structure TableRow where
  /-- The row's mnemonic. -/
  mnemonic : String
  /-- The row's `match`. -/
  pattern : Word
  /-- The row's `mask`. -/
  mask : Word
  deriving DecidableEq, Repr

/-- The eleven rows in ascending priority; the first that matches wins (rule R103). -/
def opcodeTable : List TableRow :=
  [⟨"HALT0", 0x0000#16, 0xFFFF#16⟩, ⟨"ADD", 0x0000#16, 0xF000#16⟩, ⟨"SUB", 0x1000#16, 0xF000#16⟩,
   ⟨"MUL", 0x2000#16, 0xF000#16⟩, ⟨"DIV", 0x3000#16, 0xF000#16⟩, ⟨"MOVM", 0x4000#16, 0xFF00#16⟩,
   ⟨"MOVM", 0x4800#16, 0xF800#16⟩, ⟨"MOVI", 0x4000#16, 0xF000#16⟩, ⟨"SKIP", 0x5000#16, 0xF000#16⟩,
   ⟨"SKIP", 0x6000#16, 0xE000#16⟩, ⟨"SKIP", 0x8000#16, 0x8000#16⟩]

/-- The mnemonic the table gives a word. -/
def tableMnemonic (w : Word) : Option String :=
  (opcodeTable.find? fun r => w &&& r.mask == r.pattern).map TableRow.mnemonic

/-- The mnemonic of an instruction. -/
def Instr.mnemonic : Instr → String
  | .halt0 => "HALT0"
  | .add _ _ _ => "ADD"
  | .sub _ _ _ => "SUB"
  | .mul _ _ _ => "MUL"
  | .div _ _ _ => "DIV"
  | .movm _ _ => "MOVM"
  | .movi _ _ => "MOVI"
  | .skip _ _ => "SKIP"

/-! ### The encoder, from the formats of rule R91 -/

/-- The word of an instruction: opcode in bits 15 to 12, then the format's fields (rules R91, R93). -/
def encode : Instr → Word
  | .halt0 => 0x0000#16
  | .add fa fb fmt => 0#4 ++ fa ++ fb ++ fmt
  | .sub fa fb fmt => 1#4 ++ fa ++ fb ++ fmt
  | .mul fa fb fmt => 2#4 ++ fa ++ fb ++ fmt
  | .div fa fb fmt => 3#4 ++ fa ++ fb ++ fmt
  | .movm fd imm8 => 4#4 ++ fd ++ imm8
  | .movi fd imm8 => 4#4 ++ fd ++ imm8
  | .skip op ignored => op ++ ignored

/-- The two bytes of a word as memory holds them, `w[15:8]` at the lower address (rules R59, R90). -/
def wordBytes (w : Word) : List Byte := [w.extractLsb' 8 8, w.extractLsb' 0 8]

/-- The two bytes of an instruction. -/
def encodeBytes (i : Instr) : List Byte := wordBytes (encode i)

/-- A word given as a number, bit 0 its least significant bit as spec/opcode_table.json numbers it; bits at
and above `nbits` are zero. -/
def tableWord (nbits w : Nat) : Word := BitVec.ofNat 16 (w % 2 ^ nbits)

/-- What the decoder reads from an instruction whose bits are `w`. -/
def decodeTableWord (nbits w : Nat) : Option Instr :=
  match decodeBytes (wordBytes (tableWord nbits w)) with
  | .ok (i, _) => some i
  | .error _ => none

end Sys2Proof
end

