-- ==== Sys2Proof/Machine/Flags.lean ====
section
/-! DEFINITION. The arithmetic unit (40_alu.md rules R110 to R113): each operation as a function of its two
operands, and of the old carry where it keeps it, to (result, `CF'`, `OF'`). Results are computed exactly on
natural numbers or integers and narrowed at the end. That flags are assigned and that multiply and divide keep the
carry are the spec's decisions D7 and D8 (log entry 15, unsafe). -/

namespace Sys2Proof.Machine

/-- What the ALU answers: the result byte, the carry and the overflow (rule R119). -/
abbrev AluOut := Byte × Bool × Bool

/-- `alu_add(a, b)` (rule R110). -/
def aluAdd (a b : Byte) : AluOut :=
  let sum := a.toNat + b.toNat
  let result := BitVec.ofNat 8 sum
  (result, decide (256 ≤ sum), a.msb == b.msb && result.msb != a.msb)

/-- `alu_sub(a, b)` (rule R111): `a` is the minuend; the carry is the borrow. -/
def aluSub (a b : Byte) : AluOut :=
  let result := BitVec.ofInt 8 ((a.toNat : Int) - (b.toNat : Int))
  (result, decide (a.toNat < b.toNat), a.msb != b.msb && result.msb != a.msb)

/-- `alu_mul(a, b, CF)` (rule R112): the low byte of the signed product; the carry is kept. -/
def aluMul (a b : Byte) (cf : Bool) : AluOut :=
  let p := a.toInt * b.toInt
  (BitVec.ofInt 8 p, cf, decide (p < -128) || decide (127 < p))

/-- The quotient byte of a division by a non-zero divisor: signed, rounded toward zero (rule R113; PRESUMED by the
spec from general knowledge, its decision D9 and passage G1, log entry 16, unsafe). -/
def quotient (a b : Byte) : Byte :=
  let n := a.toInt
  let d := b.toInt
  BitVec.ofInt 8 (n.sign * d.sign * ((n.natAbs / d.natAbs : Nat) : Int))

/-- `alu_div(a, b, CF)` (rule R113): a zero divisor, the condition DivisionByZero, gives `0x00` with `OF = 1`;
otherwise `OF = 1` only for -128 / -1; the carry is kept. -/
def aluDiv (a b : Byte) (cf : Bool) : AluOut :=
  if b = 0x00#8 then (0x00#8, cf, true)
  else (quotient a b, cf, a == 0x80#8 && b == 0xFF#8)

end Sys2Proof.Machine
end

