-- ==== Sys2Proof/Config.lean ====
section
/-! DEFINITION. The implementation parameters of 00_scope.md rule R4 that are numbers of this hardware.
The widths of rule R4 are the types of Word.lean. There is no free value: the spec leaves none open
(00_scope.md rule R6 and the table of its section 5); `max_steps` is an argument of `run`. -/

namespace Sys2Proof.Config

/-- `MEM_SIZE`, the bytes in the backing store (rule R4). -/
def memSize : Nat := 65536

/-- `NREG`, the general registers (rule R4). -/
abbrev nReg : Nat := 7

/-- `NLINES`, the cache lines (rule R4). -/
abbrev nLines : Nat := 64

/-- `BLOCK`, the bytes of one cache line's block (rule R4). -/
abbrev blockBytes : Nat := 4

end Sys2Proof.Config
end

