-- ==== Sys2Proof/Machine/State.lean ====
section
/-! DEFINITION. The state: the complete tuple of 10_state.md rule R10 and nothing else, as plain data, its
value after `init` (rule R23), and the reasons a step can stop (none: 60_exceptions.md rule R160). -/

namespace Sys2Proof.Machine

/-- The four bytes of a cache line's block; entry `k` is the byte at the block's base plus `k` (rules R17, R59). -/
abbrev Block := Vector Byte Config.blockBytes

/-- One cache line (10_state.md rule R17). -/
structure Line where
  /-- `address div 64` of the address whose access last filled the line. -/
  tag : Tag
  /-- The copy of the aligned 4-byte block that held that address. -/
  block : Block
  /-- The line holds a block. -/
  valid : Bool
  /-- The block has been written by a cache write since it was filled. -/
  dirty : Bool
  deriving DecidableEq, Repr

/-- The backing store `mem[0..65535]` (rule R19) as the list of its bytes that are not `0x00`, addresses
strictly rising; an address that is not listed reads as `0x00`, its value after `init` (rule R23). DEDUCED (log
entry 2), safe. -/
abbrev Memory := List Host.Cell

/-- The machine's state (rule R10): register file, cache, backing store. -/
structure State where
  /-- The program counter, 17 bits (rule R13; the spec's decision D1, log entry 11, unsafe). -/
  pc : PcWord
  /-- The general registers; entry `k` is `x[k + 1]` (rule R11). -/
  regs : Vector Byte Config.nReg
  /-- The carry flag (rule R15). -/
  CF : Bool
  /-- The overflow flag (rule R15). -/
  OF : Bool
  /-- The cache lines `line[0..63]` (rule R17). -/
  cache : Vector Line Config.nLines
  /-- The backing store `mem` (rule R19). -/
  mem : Memory
  deriving DecidableEq, Repr

/-- The reasons a step can stop with a fault: there is none ("it has no fault outcome", rule R160; "No
operation of the core faults", rule R6), so this type has no constructor. -/
inductive Fault where
  deriving DecidableEq, Repr

/-- The reasons a step can be refused. -/
inductive Refusal where
  /-- Raised by an arm of `exec` whose instruction has no meaning yet; safe. No arm raises it: every
  instruction has its meaning. -/
  | notModelled (mnemonic : String)
  deriving DecidableEq, Repr

/-- A cache line after `CacheInit` (rules R23, R49). -/
def Line.init : Line := ⟨0#10, Vector.replicate 4 0x00#8, false, false⟩

/-- The machine after power-on initialisation, 10_state.md rule R23, column "after `init`": every register,
flag, line field and byte of memory is zero. DESIGN CHOICE (log entry 1): this column, not `reset`'s; unsafe of a
machine that was never initialised. -/
def State.reset : State where
  pc := 0#17
  regs := Vector.replicate 7 0x00#8
  CF := false
  OF := false
  cache := Vector.replicate 64 Line.init
  mem := []

end Sys2Proof.Machine
end

