-- ==== Sys2Proof/Machine/Ops.lean ====
section
/-! DEFINITION. The named operations over registers and memory: the register-file ports (10_state.md), the
backing store, the address decoder, the cache controller and the bounds-checked Memory ports (20_memory.md).

The cache and Memory operations take the size of the backing store as an argument, as the document's
`read(cache, mem, size, address)` does (rule R50), so that the two bounds conditions are written as the spec
writes them; this hardware's size is `Config.memSize` (DESIGN CHOICE, log entry 5, safe).

There is no operation that takes an exception and none that returns from one: the hardware has no exceptions,
interrupts or traps (60_exceptions.md rules R160, R166, R168, R169). -/

namespace Sys2Proof.Machine

/-! ### Register file (rules R11, R12) and program counter (rule R13) -/

/-- The index selects one of `x[1]` to `x[7]`; every other one is the condition InvalidRegisterIndex
(60_exceptions.md rule R164). -/
def isRegister (i : RegIndex) : Bool := decide (1 ≤ i.toNat) && decide (i.toNat ≤ 7)

/-- The read port `x[i]`: `0x00` when the index selects no register (rule R11; index 0 is the spec's decision D12,
log entry 18, unsafe). -/
def State.readReg (s : State) (i : RegIndex) : Byte :=
  if isRegister i then s.regs.getD (i.toNat - 1) 0x00#8 else 0x00#8

/-- The write port `x[i] <- v`: nothing when the index selects no register (rule R12). -/
def State.writeReg (s : State) (i : RegIndex) (v : Byte) : State :=
  if isRegister i then { s with regs := s.regs.setIfInBounds (i.toNat - 1) v } else s

/-- `pc <- pc + 2` (42_cycle.md rule R144). -/
def State.advancePc (s : State) : State := { s with pc := s.pc + 2#17 }

/-! ### Backing store (rule R19) -/

/-- What an address that memory does not list reads as: the `0x00` that `init` wrote (rules R23, R54). -/
def unlistedByte : Byte := 0x00#8

/-- The byte listed at `a`, or the unlisted byte. -/
def Memory.lookup : Memory → Nat → Byte
  | [], _ => unlistedByte
  | (k, b) :: m, a => if k = a then b else Memory.lookup m a

/-- The list with the byte at `a` made `v`, kept in canonical form. -/
def Memory.insert : Memory → Nat → Byte → Memory
  | [], a, v => if v = unlistedByte then [] else [(a, v)]
  | (k, b) :: m, a, v =>
    if a < k then (if v = unlistedByte then (k, b) :: m else (a, v) :: (k, b) :: m)
    else if a = k then (if v = unlistedByte then m else (a, v) :: m)
    else (k, b) :: Memory.insert m a v

/-- Addresses are at least `lo`, strictly rising and below 65536, and no entry equals the unlisted byte. -/
def Memory.wfFrom : Nat → Memory → Bool
  | _, [] => true
  | lo, (k, b) :: m => decide (lo ≤ k) && decide (k < 65536) && b != unlistedByte && Memory.wfFrom (k + 1) m

/-- The canonical form of a memory. -/
def Memory.wf (m : Memory) : Bool := Memory.wfFrom 0 m

/-- `mem[a]`, raw. -/
def Memory.read (m : Memory) (a : Addr) : Byte := Memory.lookup m a.toNat

/-- `mem[a] <- v`, raw. -/
def Memory.write (m : Memory) (a : Addr) (v : Byte) : Memory := Memory.insert m a.toNat v

/-- The bytes `mem[base + k]`, `k = 0, 1, 2, 3`. -/
def Memory.readBlock (m : Memory) (base : Addr) : Block :=
  #v[m.read base, m.read (base + 1#16), m.read (base + 2#16), m.read (base + 3#16)]

/-- `mem[base + k] <- block[k]` for `k = 0, 1, 2, 3`. -/
def Memory.writeBlock (m : Memory) (base : Addr) (b : Block) : Memory :=
  (((m.write base b[0]).write (base + 1#16) b[1]).write (base + 2#16) b[2]).write (base + 3#16) b[3]

/-! ### Address decoder (rule R40) -/

/-- `tag = a div 64 = a[15:6]`. -/
def tagOf (a : Addr) : Tag := a.extractLsb' 6 10

/-- `index = a mod 64 = a[5:0]`. -/
def indexOf (a : Addr) : LineIndex := a.extractLsb' 0 6

/-- `offset = a mod 4 = a[1:0]`. -/
def offsetOf (a : Addr) : Offset := a.extractLsb' 0 2

/-- The aligned base of an address, `a - (a mod 4)` (00_scope.md section 7). -/
def alignedBase (a : Addr) : Addr := a - (offsetOf a).setWidth 16

/-- The address whose access filled line `i`, `tag * 64 + i` (rules R17, R44). -/
def lineAddr (tag : Tag) (i : LineIndex) : Addr := tag ++ i

/-- The address a line is written back to: the aligned base of `tag * 64 + i` (rule R44; the spec's decision D3,
log entry 13, unsafe). -/
def writeBackBase (tag : Tag) (i : LineIndex) : Addr := alignedBase (lineAddr tag i)

/-! ### Cache controller (rules R42 to R49) -/

/-- `line[i]`. -/
def State.line (s : State) (i : LineIndex) : Line := s.cache[i.toNat]'i.isLt

/-- The state with `line[i]` replaced. -/
def State.setLine (s : State) (i : LineIndex) (l : Line) : State :=
  { s with cache := s.cache.set i.toNat l i.isLt }

/-- `Hit(a)` (rule R42). -/
def State.hit (s : State) (a : Addr) : Bool :=
  (s.line (indexOf a)).valid && (s.line (indexOf a)).tag == tagOf a

/-- The byte of a block at an offset. -/
def Block.byteAt (b : Block) (o : Offset) : Byte := b[o.toNat]'o.isLt

/-- The block with the byte at an offset replaced. -/
def Block.withByte (b : Block) (o : Offset) (v : Byte) : Block := b.set o.toNat v o.isLt

/-- The block of a zero-fill (rule R45; all four bytes by the spec's decision D24, log entry 5, safe). -/
def zeroBlock : Block := Vector.replicate 4 0x00#8

/-- `WriteBack(i)` (rule R44): all four bytes go back to where the block came from; beyond the store, the
condition CacheBoundaryOverrun, nothing is written (60_exceptions.md rule R162). -/
def State.writeBack (size : Nat) (i : LineIndex) (s : State) : State :=
  let base := writeBackBase (s.line i).tag i
  if base.toNat + 4 ≤ size then { s with mem := s.mem.writeBlock base (s.line i).block } else s

/-- Step 1 of `Miss` and the loop body of `CacheFlush`: a line that is valid and dirty is written back (rules
R45, R48). -/
def State.evict (size : Nat) (i : LineIndex) (s : State) : State :=
  if (s.line i).valid && (s.line i).dirty then s.writeBack size i else s

/-- The block a fill loads for `a`: zeros beyond the store, the condition CacheBoundaryOverrun (rule R45). -/
def fillBlock (size : Nat) (m : Memory) (a : Addr) : Block :=
  if (alignedBase a).toNat + 4 ≤ size then m.readBlock (alignedBase a) else zeroBlock

/-- Steps 2 and 3 of `Miss`: fill and retag (rule R45). -/
def State.fill (size : Nat) (a : Addr) (s : State) : State :=
  s.setLine (indexOf a) ⟨tagOf a, fillBlock size s.mem a, true, false⟩

/-- `Miss(a)` (rule R45): the write-back happens before the fill reads `mem`. -/
def State.miss (size : Nat) (a : Addr) (s : State) : State := (s.evict size (indexOf a)).fill size a

/-- `if not Hit(a) then Miss(a)`, the start of every cache access (rules R46, R47). -/
def State.makeResident (size : Nat) (a : Addr) (s : State) : State := if s.hit a then s else s.miss size a

/-- `line[index].block[offset]`, the byte a hit on `a` returns. -/
def State.lineByte (s : State) (a : Addr) : Byte := (s.line (indexOf a)).block.byteAt (offsetOf a)

/-- `line[index].block[offset] <- v` and `line[index].dirty <- true` (rule R47). -/
def State.storeInLine (s : State) (a : Addr) (v : Byte) : State :=
  s.setLine (indexOf a)
    { s.line (indexOf a) with block := (s.line (indexOf a)).block.withByte (offsetOf a) v, dirty := true }

/-- `CacheRead(a)` (rule R46): the byte and the state after, since a miss changes it. -/
def State.cacheRead (size : Nat) (a : Addr) (s : State) : Byte × State :=
  ((s.makeResident size a).lineByte a, s.makeResident size a)

/-- `CacheWrite(a, v)` (rule R47): write-allocate; `mem` does not get `v`. -/
def State.cacheWrite (size : Nat) (a : Addr) (v : Byte) (s : State) : State :=
  (s.makeResident size a).storeInLine a v

/-- The first loop of `CacheFlush` over the lines below `n`, in ascending order (rule R48). -/
def State.drain (size : Nat) : Nat → State → State
  | 0, s => s
  | n + 1, s => (State.drain size n s).evict size (BitVec.ofNat 6 n)

/-- `CacheFlush()` (rule R48): drain every dirty line, then invalidate all; tags and blocks keep their values
(the order and what is kept are the spec's decision D16, log entry 21, unsafe). -/
def State.cacheFlush (size : Nat) (s : State) : State :=
  let t := s.drain size 64
  { t with cache := t.cache.map fun l => { l with valid := false, dirty := false } }

/-- `CacheInit()` (rule R49): every line zero, with no write-back. -/
def State.cacheInit (s : State) : State := { s with cache := Vector.replicate 64 Line.init }

/-! ### Memory's ports (rules R52 to R55) -/

/-- `MemRead(a, 1)` (rule R52): at and above the size, the condition OutOfBounds, it reads `0x00` and touches
nothing (60_exceptions.md rule R161). -/
def State.memRead (size a : Nat) (s : State) : Byte × State :=
  if size ≤ a then (0x00#8, s) else s.cacheRead size (BitVec.ofNat 16 a)

/-- `MemWrite(a, 1, v)` (rule R53): at and above the size it does nothing. -/
def State.memWrite (size a : Nat) (v : Byte) (s : State) : State :=
  if size ≤ a then s else s.cacheWrite size (BitVec.ofNat 16 a) v

/-- `Memory.init` (rule R54). -/
def State.memInit (s : State) : State := State.cacheInit { s with mem := [] }

/-- `BackingWrite(a, v)` (rule R55): `mem[a] <- v`, the cache untouched. -/
def State.backingWrite (a : Addr) (v : Byte) (s : State) : State := { s with mem := s.mem.write a v }

/-- `View(a)` (rule R57): what a read of `a` through the cache returns. -/
def State.view (s : State) (a : Addr) : Byte := if s.hit a then s.lineByte a else s.mem.read a

end Sys2Proof.Machine
end

