-- ==== Sys2Proof/Machine/Operands.lean ====
section
/-! DEFINITION. How the instructions get their operands and put their results (40_alu.md rule R118,
30_encoding.md rules R95, R96). -/

namespace Sys2Proof.Machine

/-- The destination of every ALU instruction, `x[7]` (rule R118; the spec's decision D4, log entry 14, unsafe). -/
def aluDest : RegIndex := 7#4

/-- The write-back of an ALU instruction: `x[7] <- r; CF <- c; OF <- o` (rule R118). -/
def State.writeAluOut (s : State) (out : AluOut) : State :=
  { s.writeReg aluDest out.1 with CF := out.2.1, OF := out.2.2 }

/-- The shared form of ADD, SUB, MUL and DIV (rule R118): both operands are read before anything is written,
then the ALU operation, the write-back, and `pc + 2`. -/
def aluInstr (op : Byte → Byte → Bool → AluOut) (fa fb : RegIndex) (s : State) : State :=
  (s.writeAluOut (op (s.readReg fa) (s.readReg fb) s.CF)).advancePc

/-- The address MOVM stores to: the destination field itself, zero-extended (rules R95, R132; the spec's decision
D10, log entry 17, unsafe). -/
def movmAddr (fd : BitVec 4) : Addr := fd.setWidth 16

end Sys2Proof.Machine
end

