-- ==== Sys2Proof/Machine/Alu.lean ====
section
/-! DEFINITION. The ALU family: ADD, SUB, MUL, DIV (40_alu.md rules R114 to R118). The format flag is ignored
(30_encoding.md rule R97). Which field is the left operand and that the flag is ignored are the spec's decisions
D5 and D6 (log entry 14, unsafe). -/

namespace Sys2Proof.Machine

/-- ADD (rule R114): `x[7] <- x[fa] + x[fb]`; CF and OF assigned. -/
def execAdd (fa fb : RegIndex) (_fmt : BitVec 4) (s : State) : Host.Outcome State Fault Refusal :=
  .next (aluInstr (fun a b _ => aluAdd a b) fa fb s)

/-- SUB (rule R115): `x[7] <- x[fa] - x[fb]`; CF and OF assigned. -/
def execSub (fa fb : RegIndex) (_fmt : BitVec 4) (s : State) : Host.Outcome State Fault Refusal :=
  .next (aluInstr (fun a b _ => aluSub a b) fa fb s)

/-- MUL (rule R116): `x[7] <- x[fa] * x[fb]`; OF assigned, CF unchanged. -/
def execMul (fa fb : RegIndex) (_fmt : BitVec 4) (s : State) : Host.Outcome State Fault Refusal :=
  .next (aluInstr aluMul fa fb s)

/-- DIV (rule R117): `x[7] <- x[fa] / x[fb]`; OF assigned, CF unchanged; a zero divisor is no fault. -/
def execDiv (fa fb : RegIndex) (_fmt : BitVec 4) (s : State) : Host.Outcome State Fault Refusal :=
  .next (aluInstr aluDiv fa fb s)

end Sys2Proof.Machine
end

