-- ==== Sys2Proof/Machine/Cycle.lean ====
section
/-! DEFINITION. The instruction cycle (42_cycle.md): the fetch, and the two encodings that are not
instructions, the zero word and the unrecognised opcodes. -/

namespace Sys2Proof.Machine

/-- HALT0, the zero word (rule R145): nothing, and `pc` does not advance (the spec's decision D2, log entry 12,
unsafe). -/
def execHalt0 (s : State) : Host.Outcome State Fault Refusal := .next s

/-- SKIP, an unrecognised opcode (rule R148): `pc <- pc + 2` and nothing else. -/
def execSkip (_op : BitVec 4) (_ignored : BitVec 12) (s : State) : Host.Outcome State Fault Refusal :=
  .next s.advancePc

/-- `pc >= MEM_SIZE - 1` (rule R141). -/
def State.terminal (s : State) : Bool := decide (Config.memSize - 1 ≤ s.pc.toNat)

/-- `Fetch()` (rule R140): the byte at `pc`, then the byte at `pc + 1`, both through the cache, high byte
first; in a terminal state the zero word with no access at all (the spec's decision D13, log entry 19, unsafe). -/
def fetch (s : State) : Word × State :=
  if s.terminal then (0x0000#16, s)
  else
    let hi := s.memRead Config.memSize s.pc.toNat
    let lo := hi.2.memRead Config.memSize (s.pc.toNat + 1)
    (hi.1 ++ lo.1, lo.2)

/-- The state with the byte that a fetch of `a` returns made `v`, and nothing else changed: in the line when
`a` hits, in the backing store otherwise (rule R57). Only `withFetchWord` uses it; it is no operation of the
hardware (DESIGN CHOICE, log entry 3, safe). -/
def State.pokeView (s : State) (a : Addr) (v : Byte) : State :=
  if s.hit a then
    s.setLine (indexOf a)
      { s.line (indexOf a) with block := (s.line (indexOf a)).block.withByte (offsetOf a) v }
  else { s with mem := s.mem.write a v }

/-- The state with the word that its next fetch returns made `w`. A terminal state fetches nothing, so its
`pc` is first put back to 0, as `reset` does (DESIGN CHOICE, log entry 3, safe). -/
def State.pokeWord (s : State) (w : Word) : State :=
  let t := if s.terminal then { s with pc := 0#17 } else s
  let a := t.pc.setWidth 16
  (t.pokeView a (w.extractLsb' 8 8)).pokeView (a + 1#16) (w.extractLsb' 0 8)

end Sys2Proof.Machine
end

