-- ==== Sys2Proof/Machine/Move.lean ====
section
/-! DEFINITION. The move family: MOV's memory form and register form (41_move.md rules R130 to R133). -/

namespace Sys2Proof.Machine

/-- MOVM (rule R132): `mem[zext(fd)] <- imm8`, straight into the backing store; the cache is neither read nor
updated nor invalidated. -/
def execMovm (fd : BitVec 4) (imm8 : Byte) (s : State) : Host.Outcome State Fault Refusal :=
  .next (s.backingWrite (movmAddr fd) imm8).advancePc

/-- MOVI (rule R131): `x[fd] <- imm8`. -/
def execMovi (fd : RegIndex) (imm8 : Byte) (s : State) : Host.Outcome State Fault Refusal :=
  .next (s.writeReg fd imm8).advancePc

end Sys2Proof.Machine
end

