-- ==== Sys2Proof/Machine/Dispatch.lean ====
section
/-! DEFINITION. Which meaning each instruction has (`DecodeExecute`, 42_cycle.md rule R144, and the zero word,
rule R145). -/

namespace Sys2Proof.Machine

def exec (i : Instr) (s : State) : Host.Outcome State Fault Refusal :=
  match i with
  | .halt0 => Sys2Proof.Machine.execHalt0 s
  | .add fa fb fmt => Sys2Proof.Machine.execAdd fa fb fmt s
  | .sub fa fb fmt => Sys2Proof.Machine.execSub fa fb fmt s
  | .mul fa fb fmt => Sys2Proof.Machine.execMul fa fb fmt s
  | .div fa fb fmt => Sys2Proof.Machine.execDiv fa fb fmt s
  | .movm fd imm8 => Sys2Proof.Machine.execMovm fd imm8 s
  | .movi fd imm8 => Sys2Proof.Machine.execMovi fd imm8 s
  | .skip op ignored => Sys2Proof.Machine.execSkip op ignored s

end Sys2Proof.Machine
end

