-- ==== Sys2Proof/Machine/Step.lean ====
section
/-! DEFINITION. One step of the core (42_cycle.md rule R143). -/

namespace Sys2Proof.Machine

/-- `step()` (rule R143): fetch one word, then decode and execute it. The zero word decodes to HALT0, whose
meaning is to do nothing, which is the rule's "if non-zero". -/
def step (s : State) : Host.Outcome State Fault Refusal := exec (decodeWord (fetch s).1) (fetch s).2

/-- The state whose very next step runs the instruction with bits `w` (log entry 3). -/
def State.withFetchWord (s : State) (nbits w : Nat) : State := s.pokeWord (tableWord nbits w)

end Sys2Proof.Machine
end

