-- ==== Sys2Proof/Machine/HostPorts.lean ====
section
/-! DEFINITION. The operations through which the surrounding software drives the core (70_reset_and_hazards.md
rule R180), each atomic (00_scope.md rule R5): `init`, `reset`, `load_program`, `step`, `run`, the cache flush,
the register and memory ports and the three snapshots. -/

namespace Sys2Proof.Machine

/-! ### Reset and program load -/

/-- `reset` (rule R182): the register file only; `mem` and the cache stay (the spec's decision D15, log entry 20,
unsafe). -/
def State.hostReset (s : State) : State :=
  { s with pc := 0#17, regs := Vector.replicate 7 0x00#8, CF := false, OF := false }

/-- `init`, power-on initialisation (rule R181): `Memory.init` and the register-file reset. -/
def State.hostInit (s : State) : State := s.memInit.hostReset

/-- `BackingWrite(k, bytes[0]); BackingWrite(k + 1, bytes[1]); ...` (rule R184). -/
def State.loadFrom : Nat → List Byte → State → State
  | _, [], s => s
  | k, b :: bs, s => State.loadFrom (k + 1) bs (s.backingWrite (BitVec.ofNat 16 k) b)

/-- `load_program(bytes)` (rule R184): whether it was accepted, and the state after; a buffer longer than the
store is rejected with no change (the direct path is the spec's decision D14, log entry 20, unsafe). -/
def State.loadProgram (bytes : List Byte) (s : State) : Bool × State :=
  if Config.memSize < bytes.length then (false, s) else (true, s.loadFrom 0 bytes)

/-! ### Run -/

/-- `run(max_steps)` (rule R147): steps while `pc` is below the memory bound and the count lasts; a step on a
zero word counts (the loop's form is the spec's decision D23, log entry 23, safe). -/
def run : Nat → State → Host.Outcome State Fault Refusal
  | 0, s => .next s
  | n + 1, s =>
    if s.terminal then .next s
    else
      match step s with
      | .next t => run n t
      | .fault r => .fault r
      | .refused r => .refused r

/-! ### Register ports and snapshots -/

/-- The index, any integer, is one of 1 to 7 (rule R187). -/
def isPortIndex (i : Int) : Bool := decide (1 ≤ i) && decide (i ≤ 7)

/-- `reg_get(i)` (rule R187). -/
def State.regGet (i : Int) (s : State) : Byte :=
  if isPortIndex i then s.readReg (BitVec.ofInt 4 i) else 0x00#8

/-- `reg_set(i, v)` (rule R187). -/
def State.regSet (i : Int) (v : Byte) (s : State) : State :=
  if isPortIndex i then s.writeReg (BitVec.ofInt 4 i) v else s

/-- The memory snapshot of `n` bytes from `a` (rule R190): `mem` raw; addresses that do not exist are not
returned (raw reading is the spec's decision D18, log entry 22, unsafe). -/
def State.memSnapshot (a n : Nat) (s : State) : List Byte :=
  ((List.range n).filter fun k => decide (a + k < Config.memSize)).map fun k => s.mem.read (BitVec.ofNat 16 (a + k))

/-! ### All operations (rule R180) -/

/-- One operation of the interface with its arguments. -/
inductive HostOp where
  /-- Power-on initialisation (rule R181). -/
  | init
  /-- Register-file reset (rule R182). -/
  | reset
  /-- Copy a program into memory at address 0 (rule R184). -/
  | loadProgram (bytes : List Byte)
  /-- One step of the core (rules R143, R185). -/
  | step
  /-- At most `maxSteps` steps (rules R147, R185). -/
  | run (maxSteps : Nat)
  /-- Drain and invalidate the cache (rules R48, R186). -/
  | cacheFlush
  /-- Read a general register (rule R187). -/
  | regGet (index : Int)
  /-- Write a general register (rule R187). -/
  | regSet (index : Int) (v : Byte)
  /-- Read a byte through the cache (rules R52, R188). -/
  | memRead (a : Nat)
  /-- Write a byte through the cache (rules R53, R188). -/
  | memWrite (a : Nat) (v : Byte)
  /-- The register snapshot (rule R189). -/
  | regSnapshot
  /-- The memory snapshot of a byte range (rule R190). -/
  | memSnapshot (a n : Nat)
  /-- The cache snapshot (rule R191). -/
  | cacheSnapshot
  deriving DecidableEq, Repr

/-- What an operation returns to the host (rule R180). -/
inductive HostAnswer where
  /-- The operation returns nothing. -/
  | nothing
  /-- `load_program` took the buffer. -/
  | accepted
  /-- `load_program` turned the buffer away. -/
  | rejected
  /-- A byte. -/
  | byte (v : Byte)
  /-- `pc`, `x[1..7]`, `CF`, `OF`. -/
  | registers (pc : PcWord) (x : Vector Byte Config.nReg) (CF OF : Bool)
  /-- The bytes of a memory range. -/
  | bytes (l : List Byte)
  /-- All 64 cache lines. -/
  | lines (l : Vector Line Config.nLines)
  deriving DecidableEq, Repr

/-- A step's outcome, with the answer "nothing" beside the next state. -/
def withNoAnswer : Host.Outcome State Fault Refusal → Host.Outcome (State × HostAnswer) Fault Refusal
  | .next t => .next (t, .nothing)
  | .fault r => .fault r
  | .refused r => .refused r

/-- What one host operation does to the state and what it returns (rule R180). -/
def hostOp (op : HostOp) (s : State) : Host.Outcome (State × HostAnswer) Fault Refusal :=
  match op with
  | .init => .next (s.hostInit, .nothing)
  | .reset => .next (s.hostReset, .nothing)
  | .loadProgram bytes =>
    .next ((s.loadProgram bytes).2, if (s.loadProgram bytes).1 then .accepted else .rejected)
  | .step => withNoAnswer (step s)
  | .run n => withNoAnswer (run n s)
  | .cacheFlush => .next (s.cacheFlush Config.memSize, .nothing)
  | .regGet i => .next (s, .byte (s.regGet i))
  | .regSet i v => .next (s.regSet i v, .nothing)
  | .memRead a => .next ((s.memRead Config.memSize a).2, .byte (s.memRead Config.memSize a).1)
  | .memWrite a v => .next (s.memWrite Config.memSize a v, .nothing)
  | .regSnapshot => .next (s, .registers s.pc s.regs s.CF s.OF)
  | .memSnapshot a n => .next (s, .bytes (s.memSnapshot a n))
  | .cacheSnapshot => .next (s, .lines s.cache)

/-- A sequence of operations, one after the other (rule R5): the state after the last. -/
def hostRun : List HostOp → State → Host.Outcome State Fault Refusal
  | [], s => .next s
  | op :: ops, s =>
    match hostOp op s with
    | .next (t, _) => hostRun ops t
    | .fault r => .fault r
    | .refused r => .refused r

end Sys2Proof.Machine
end

