-- ==== Sys2Proof/Safety.lean ====
section
/-! DEFINITION. What claims are stated in terms of: the invariant of the machine, the ends of a run, and the
states in which nothing waits to be written back. -/

namespace Sys2Proof.Machine

/-- The invariant of every state that the operations of rule R180 reach from the state after `init`. -/
structure State.Inv (s : State) : Prop where
  /-- Memory is in its canonical form, all its addresses below 65536. -/
  memWf : s.mem.wf = true
  /-- `dirty` implies `valid` (10_state.md rule R18). -/
  dirtyValid : ∀ i : LineIndex, (s.line i).dirty = true → (s.line i).valid = true
  /-- `pc` is even (rules R13, R14). -/
  pcEven : s.pc.toNat % 2 = 0
  /-- `pc` is at most 65536 (rules R13, R14). -/
  pcBound : s.pc.toNat ≤ Config.memSize

/-- No line is dirty: nothing waits to be written back. -/
def State.NoDirty (s : State) : Prop := ∀ i : LineIndex, (s.line i).dirty = false

/-- Halted in place (42_cycle.md rule R146). -/
def State.HaltedInPlace (s : State) : Prop :=
  s.pc.toNat < Config.memSize - 1 ∧ s.view (s.pc.setWidth 16) = 0x00#8 ∧
    s.view (s.pc.setWidth 16 + 1#16) = 0x00#8

/-- A step leaves the state as it is. -/
def State.FixedPoint (s : State) : Prop := step s = .next s

/-- A sequence of steps has ended, as far as the state shows it (42_cycle.md rule R151 (a) and (b)). -/
def State.Ended (s : State) : Prop := s.terminal = true ∨ (s.HaltedInPlace ∧ s.FixedPoint)

end Sys2Proof.Machine
end

