-- ==== Sys2Proof/Certificates/Slice0/Obligations.lean ====
section
/-! DEFINITION. The statements for the provers. Each docstring names the rule it formalises; where a clause
rests on a decision that the spec marks as its own (92_eei_decisions.md D<n>) or on a log entry of this model,
the docstring says so. -/

open Sys2Proof Sys2Proof.Machine

/-! ### Encoding -/

/-- Decode and encode agree in both directions, on words and on bytes: every well-formed instruction comes back
with every field at every value, every word decodes to a well-formed instruction, and encoding that gives the
word back (30_encoding.md sections 1 to 3). The encoder is the model's own. -/
def Obligations.DecodeEncodeAgree : Prop :=
  (∀ i : Instr, i.wf = true → decodeWord (encode i) = i) ∧
  (∀ w : Word, (decodeWord w).wf = true ∧ encode (decodeWord w) = w) ∧
  (∀ (i : Instr) (rest : List Byte), i.wf = true → decodeBytes (encodeBytes i ++ rest) = .ok (i, rest))

/-- Rule R94 with the field numbers of rule R92 and the form selection of rule R130: the arm each range of words
falls in, and the fields as numbers. The ranges cover all 65536 words. -/
def Obligations.EveryWordFallsInItsArm : Prop :=
  ∀ w : Word,
    (w.toNat = 0 → decodeWord w = .halt0) ∧
    (1 ≤ w.toNat → w.toNat ≤ 0x0FFF →
      ∃ fa fb fmt, decodeWord w = .add fa fb fmt ∧
        fa.toNat = w.toNat / 256 % 16 ∧ fb.toNat = w.toNat / 16 % 16 ∧ fmt.toNat = w.toNat % 16) ∧
    (0x1000 ≤ w.toNat → w.toNat ≤ 0x1FFF →
      ∃ fa fb fmt, decodeWord w = .sub fa fb fmt ∧
        fa.toNat = w.toNat / 256 % 16 ∧ fb.toNat = w.toNat / 16 % 16 ∧ fmt.toNat = w.toNat % 16) ∧
    (0x2000 ≤ w.toNat → w.toNat ≤ 0x2FFF →
      ∃ fa fb fmt, decodeWord w = .mul fa fb fmt ∧
        fa.toNat = w.toNat / 256 % 16 ∧ fb.toNat = w.toNat / 16 % 16 ∧ fmt.toNat = w.toNat % 16) ∧
    (0x3000 ≤ w.toNat → w.toNat ≤ 0x3FFF →
      ∃ fa fb fmt, decodeWord w = .div fa fb fmt ∧
        fa.toNat = w.toNat / 256 % 16 ∧ fb.toNat = w.toNat / 16 % 16 ∧ fmt.toNat = w.toNat % 16) ∧
    (0x4100 ≤ w.toNat → w.toNat ≤ 0x47FF →
      ∃ fd imm8, decodeWord w = .movi fd imm8 ∧ fd.toNat = w.toNat / 256 % 16 ∧ imm8.toNat = w.toNat % 256) ∧
    ((0x4000 ≤ w.toNat ∧ w.toNat ≤ 0x40FF) ∨ (0x4800 ≤ w.toNat ∧ w.toNat ≤ 0x4FFF) →
      ∃ fd imm8, decodeWord w = .movm fd imm8 ∧ fd.toNat = w.toNat / 256 % 16 ∧ imm8.toNat = w.toNat % 256) ∧
    (0x5000 ≤ w.toNat →
      ∃ op ignored, decodeWord w = .skip op ignored ∧ op.toNat = w.toNat / 4096 ∧ ignored.toNat = w.toNat % 4096)

/-- One word of every family, written out from the spec's encodings (95_test_vectors.md section 6). -/
def Obligations.SpecWordsDecode : Prop :=
  decodeWord 0x0000#16 = .halt0 ∧ decodeWord 0x0001#16 = .add 0 0 1 ∧ decodeWord 0x0123#16 = .add 1 2 3 ∧
  decodeWord 0x1003#16 = .sub 0 0 3 ∧ decodeWord 0x2763#16 = .mul 7 6 3 ∧ decodeWord 0x3120#16 = .div 1 2 0 ∧
  decodeWord 0x4000#16 = .movm 0 0 ∧ decodeWord 0x4100#16 = .movi 1 0 ∧ decodeWord 0x47FF#16 = .movi 7 255 ∧
  decodeWord 0x4800#16 = .movm 8 0 ∧ decodeWord 0x5000#16 = .skip 5 0 ∧ decodeWord 0xFFFF#16 = .skip 15 0xFFF

/-- The opcode table of spec/opcode_table.json, read in priority order, names the same instruction as the decoder
for every word (30_encoding.md section 6). -/
def Obligations.OpcodeTableAgreesWithDecoder : Prop :=
  ∀ w : Word, tableMnemonic w = some (decodeWord w).mnemonic

/-- The model's own convention (log entry 3): the word given to `withFetchWord` is the word the next fetch
returns, in every state whose memory is canonical, so the next step runs it. -/
def Obligations.FetchWordIsPlaced : Prop :=
  ∀ (s : State) (w : Word), s.mem.wf = true →
    (fetch (s.withFetchWord 16 w.toNat)).1 = w ∧
    step (s.withFetchWord 16 w.toNat) = exec (decodeWord w) (fetch (s.withFetchWord 16 w.toNat)).2

/-! ### The instructions: results, flags, frames, completion -/

/-- ADD (40_alu.md sections 1 and 2): the result and both flags from the exact sum, `pc + 2`, and the frame. That
both flags are assigned is the spec's decision D7, that the destination is `x[7]` with no implicit operand D4. The
term with all fields zero, which no word stands for, is an ADD of two zeros by the model's choice (log entry 8). -/
def Obligations.AddResultFlagsFrame : Prop :=
  ∀ (fa fb : RegIndex) (fmt : BitVec 4) (s : State), ∃ t, exec (.add fa fb fmt) s = .next t ∧
    (t.readReg 7#4).toNat = ((s.readReg fa).toNat + (s.readReg fb).toNat) % 256 ∧
    (t.CF = true ↔ 256 ≤ (s.readReg fa).toNat + (s.readReg fb).toNat) ∧
    (t.OF = true ↔ (s.readReg fa).toInt + (s.readReg fb).toInt < -128 ∨
      127 < (s.readReg fa).toInt + (s.readReg fb).toInt) ∧
    t.pc = s.pc + 2#17 ∧ (∀ i : RegIndex, i ≠ 7#4 → t.readReg i = s.readReg i) ∧
    t.cache = s.cache ∧ ∀ a : Addr, t.mem.read a = s.mem.read a

/-- SUB (40_alu.md sections 1 and 2): result, borrow and overflow from the exact difference, `pc + 2`, frame. The
first field as minuend is the spec's decision D5; see D4, D7 as for ADD. -/
def Obligations.SubResultFlagsFrame : Prop :=
  ∀ (fa fb : RegIndex) (fmt : BitVec 4) (s : State), ∃ t, exec (.sub fa fb fmt) s = .next t ∧
    ((t.readReg 7#4).toNat : Int) = ((s.readReg fa).toNat - (s.readReg fb).toNat : Int) % 256 ∧
    (t.CF = true ↔ (s.readReg fa).toNat < (s.readReg fb).toNat) ∧
    (t.OF = true ↔ (s.readReg fa).toInt - (s.readReg fb).toInt < -128 ∨
      127 < (s.readReg fa).toInt - (s.readReg fb).toInt) ∧
    t.pc = s.pc + 2#17 ∧ (∀ i : RegIndex, i ≠ 7#4 → t.readReg i = s.readReg i) ∧
    t.cache = s.cache ∧ ∀ a : Addr, t.mem.read a = s.mem.read a

/-- MUL (40_alu.md sections 1 and 2): the low byte of the product (the same for signed and unsigned readings),
OF from the signed product, CF unchanged (decision D8), `pc + 2`, frame. -/
def Obligations.MulResultFlagsFrame : Prop :=
  ∀ (fa fb : RegIndex) (fmt : BitVec 4) (s : State), ∃ t, exec (.mul fa fb fmt) s = .next t ∧
    (t.readReg 7#4).toNat = ((s.readReg fa).toNat * (s.readReg fb).toNat) % 256 ∧
    t.CF = s.CF ∧
    (t.OF = true ↔ (s.readReg fa).toInt * (s.readReg fb).toInt < -128 ∨
      127 < (s.readReg fa).toInt * (s.readReg fb).toInt) ∧
    t.pc = s.pc + 2#17 ∧ (∀ i : RegIndex, i ≠ 7#4 → t.readReg i = s.readReg i) ∧
    t.cache = s.cache ∧ ∀ a : Addr, t.mem.read a = s.mem.read a

/-- DIV (40_alu.md sections 1 and 2): zero for a zero divisor, otherwise the low byte of the signed quotient
rounded toward zero (decision D9), OF for a zero divisor and for -128 / -1, CF unchanged (D8), `pc + 2`, frame. -/
def Obligations.DivResultFlagsFrame : Prop :=
  ∀ (fa fb : RegIndex) (fmt : BitVec 4) (s : State), ∃ t, exec (.div fa fb fmt) s = .next t ∧
    (s.readReg fb = 0 → t.readReg 7#4 = 0) ∧
    (s.readReg fb ≠ 0 →
      t.readReg 7#4 = BitVec.ofInt 8 (Int.tdiv (s.readReg fa).toInt (s.readReg fb).toInt)) ∧
    t.CF = s.CF ∧
    (t.OF = true ↔ s.readReg fb = 0 ∨ ((s.readReg fa).toInt = -128 ∧ (s.readReg fb).toInt = -1)) ∧
    t.pc = s.pc + 2#17 ∧ (∀ i : RegIndex, i ≠ 7#4 → t.readReg i = s.readReg i) ∧
    t.cache = s.cache ∧ ∀ a : Addr, t.mem.read a = s.mem.read a

/-- DivisionByZero (60_exceptions.md section 1): a zero divisor, among them every DIV whose `fb` selects no
register, gives `x[7] = 0` and `OF = 1`, keeps CF, and goes on with the next instruction. That `fb` is the divisor
and `x[7]` the destination are the spec's decisions D5 and D4 (log entry 14), that CF is kept D8 (log entry 15), that
an `fb` of 0 or 8 to 15 reads zero, the second clause, D12 (log entry 18). -/
def Obligations.DivisionByZeroSetsOverflow : Prop :=
  (∀ (fa fb : RegIndex) (fmt : BitVec 4) (s : State), s.readReg fb = 0 →
    ∃ t, exec (.div fa fb fmt) s = .next t ∧
      t.readReg 7#4 = 0 ∧ t.OF = true ∧ t.CF = s.CF ∧ t.pc = s.pc + 2#17) ∧
  (∀ (fb : RegIndex) (s : State), fb = 0 ∨ 8 ≤ fb.toNat → s.readReg fb = 0)

/-- MOVI (41_move.md section on MOVI): `x[fd] <- imm8` when the field selects a register (every form the decoder
gives it); flags unchanged (decision D11), `pc + 2`, frame. That MOVI with a field of 0 or 8 to 15, a term no word
stands for, writes no register is the model's choice (log entry 8, DESIGN CHOICE) over what the write port does with
such an index, the spec's decision D12 (log entry 18, 10_state.md section 2). -/
def Obligations.MoviResultFrame : Prop :=
  ∀ (fd : RegIndex) (imm8 : Byte) (s : State), ∃ t, exec (.movi fd imm8) s = .next t ∧
    (1 ≤ fd.toNat → fd.toNat ≤ 7 → t.readReg fd = imm8) ∧
    (∀ i : RegIndex, i ≠ fd → t.readReg i = s.readReg i) ∧
    (fd = 0 ∨ 8 ≤ fd.toNat → ∀ i : RegIndex, t.readReg i = s.readReg i) ∧
    t.CF = s.CF ∧ t.OF = s.OF ∧ t.pc = s.pc + 2#17 ∧
    t.cache = s.cache ∧ ∀ a : Addr, t.mem.read a = s.mem.read a

/-- MOVM (41_move.md section on MOVM): the byte at the address `movmAddr fd`, which is the field's number
(decision D10), becomes `imm8` in the backing store; every other byte, every cache line, every register and both
flags (D11) are unchanged; `pc + 2`. The value read back needs memory in the model's canonical form, which every
operation keeps. For a field of 1 to 7, a term no word stands for, it is the model's choice (log entry 8). -/
def Obligations.MovmStoreFrame : Prop :=
  ∀ (fd : BitVec 4) (imm8 : Byte) (s : State), ∃ t, exec (.movm fd imm8) s = .next t ∧
    (movmAddr fd).toNat = fd.toNat ∧
    (s.mem.wf = true → t.mem.read (movmAddr fd) = imm8) ∧
    (∀ a : Addr, a ≠ movmAddr fd → t.mem.read a = s.mem.read a) ∧
    t.cache = s.cache ∧ (∀ i : RegIndex, t.readReg i = s.readReg i) ∧
    t.CF = s.CF ∧ t.OF = s.OF ∧ t.pc = s.pc + 2#17

/-- UnrecognizedOpcode (60_exceptions.md section 1): a word with opcode 5 to 15 is skipped and `pc` still advances;
the zero word is not this condition and does not advance `pc` (the spec's decision D2; that nothing else changes
is D11). For an opcode of 0 to 4, a term no word stands for, it is the model's choice (log entry 8). -/
def Obligations.UnrecognizedOpcodeIsSkipped : Prop :=
  (∀ (op : BitVec 4) (ignored : BitVec 12) (s : State),
    exec (.skip op ignored) s = .next { s with pc := s.pc + 2#17 }) ∧
  (∀ (w : Word) (s : State), 5 ≤ w.toNat / 4096 → exec (decodeWord w) s = .next { s with pc := s.pc + 2#17 }) ∧
  (∀ s : State, exec (decodeWord 0) s = .next s)

/-- HALT0 (42_cycle.md section 3): the instruction changes nothing at all, and a step that fetches the zero word
does no more than its fetch. That `pc` stays is the spec's decision D2. -/
def Obligations.ZeroWordHaltsInPlace : Prop :=
  (∀ s : State, exec .halt0 s = .next s) ∧
  (∀ s : State, (fetch s).1 = 0 → step s = .next (fetch s).2 ∧ (fetch s).2.pc = s.pc)

/-! ### The registers -/

/-- InvalidRegisterIndex (60_exceptions.md section 1): the read port answers zero and the write port does nothing for
index 0 and 8 to 15, for the host ports too; an ALU operand with such an index is the operand 0; and no MOVI the
decoder gives writes through one. That index 0 and 8 to 15 read zero and ignore writes is the spec's decision D12
on conflict C3 (log entry 18, DESIGN CHOICE). The ADD term with all fields zero is log entry 8. -/
def Obligations.InvalidRegisterIndexReadsZero : Prop :=
  (∀ (i : RegIndex) (v : Byte) (s : State), i = 0 ∨ 8 ≤ i.toNat → s.readReg i = 0 ∧ s.writeReg i v = s) ∧
  (∀ (i : Int) (v : Byte) (s : State), i ≤ 0 ∨ 8 ≤ i → s.regGet i = 0 ∧ s.regSet i v = s) ∧
  (∀ (i fb : RegIndex) (fmt : BitVec 4) (s : State), i = 0 ∨ 8 ≤ i.toNat →
    exec (.add i fb fmt) s = exec (.add 0 fb fmt) s ∧ exec (.add fb i fmt) s = exec (.add fb 0 fmt) s ∧
    exec (.sub i fb fmt) s = exec (.sub 0 fb fmt) s ∧ exec (.sub fb i fmt) s = exec (.sub fb 0 fmt) s ∧
    exec (.mul i fb fmt) s = exec (.mul 0 fb fmt) s ∧ exec (.mul fb i fmt) s = exec (.mul fb 0 fmt) s ∧
    exec (.div i fb fmt) s = exec (.div 0 fb fmt) s ∧ exec (.div fb i fmt) s = exec (.div fb 0 fmt) s) ∧
  (∀ (w : Word) (fd : RegIndex) (imm8 : Byte), decodeWord w = .movi fd imm8 → 1 ≤ fd.toNat ∧ fd.toNat ≤ 7)

/-- The write port (10_state.md section 2), and every writer of the general registers: in a step only an ALU
instruction (`x[7]`) or MOVI (`x[fd]`), of the host's operations only `reg_set`, `reset` and `init`. The ALU
destination is the spec's decision D4 (log entry 14), what the ports do with index 0 and 8 to 15 D12 (log entry
18), and that `init` zeroes the registers D15 (log entry 20). -/
def Obligations.RegisterWriters : Prop :=
  (∀ (s : State) (i j : RegIndex) (v : Byte),
    (s.writeReg i v).readReg j = if j = i ∧ 1 ≤ i.toNat ∧ i.toNat ≤ 7 then v else s.readReg j) ∧
  (∀ (s : State) (i : RegIndex) (v : Byte), i = 0 ∨ 8 ≤ i.toNat → s.writeReg i v = s) ∧
  (∀ (s t : State) (i : RegIndex), step s = .next t → t.readReg i ≠ s.readReg i →
    (i = 7#4 ∧ ∃ fa fb fmt, decodeWord (fetch s).1 = .add fa fb fmt ∨ decodeWord (fetch s).1 = .sub fa fb fmt ∨
      decodeWord (fetch s).1 = .mul fa fb fmt ∨ decodeWord (fetch s).1 = .div fa fb fmt) ∨
    ∃ imm8, decodeWord (fetch s).1 = .movi i imm8 ∧ t.readReg i = imm8) ∧
  (∀ (op : HostOp) (s t : State) (ans : HostAnswer), hostOp op s = .next (t, ans) →
    (op = .init ∨ op = .reset → ∀ i : RegIndex, t.readReg i = 0) ∧
    (∀ (k : Int) (v : Byte), op = .regSet k v →
      ∀ i : RegIndex, t.readReg i ≠ s.readReg i → (i.toNat : Int) = k ∧ t.readReg i = v) ∧
    (op ≠ .init → op ≠ .reset → op ≠ .step → (∀ n, op ≠ .run n) → (∀ k v, op ≠ .regSet k v) →
      ∀ i : RegIndex, t.readReg i = s.readReg i))

/-- `reg_get` and `reg_set` (70_reset_and_hazards.md section 4) on any integer index; 1 to 7 are the registers, every
other index reads zero and writes nothing; neither port touches `pc`, the flags, the cache or memory. That the
other indices, 0 among them, read zero and write nothing is the spec's decision D12 on conflict C3 (log entry 18,
DESIGN CHOICE). -/
def Obligations.HostRegisterPorts : Prop :=
  ∀ (i : Int) (v : Byte) (s : State),
    hostOp (.regGet i) s = .next (s, .byte (s.regGet i)) ∧
    hostOp (.regSet i v) s = .next (s.regSet i v, .nothing) ∧
    (∀ k : RegIndex, 1 ≤ k.toNat → k.toNat ≤ 7 → s.regGet k.toNat = s.readReg k ∧
      s.regSet k.toNat v = s.writeReg k v) ∧
    (1 ≤ i → i ≤ 7 → (s.regSet i v).regGet i = v) ∧
    (∀ j : Int, j ≠ i → (s.regSet i v).regGet j = s.regGet j) ∧
    (i ≤ 0 ∨ 8 ≤ i → s.regGet i = 0 ∧ s.regSet i v = s) ∧
    (s.regSet i v).pc = s.pc ∧ (s.regSet i v).CF = s.CF ∧ (s.regSet i v).OF = s.OF ∧
    (s.regSet i v).cache = s.cache ∧ (s.regSet i v).mem = s.mem

/-- The writers of the flags (10_state.md section 4): in a step CF changes only on ADD and SUB, OF only on the
four ALU instructions; of the host's operations only `run`, `step`, `reset` and `init` change them, the last two
to 0. CF after MUL and DIV rests on the spec's decision D8, MOV, the zero word and SKIP on D11, that `init`
covers the flags on D15 (log entry 20). -/
def Obligations.FlagWriters : Prop :=
  (∀ s t : State, step s = .next t →
    (t.CF ≠ s.CF → ∃ fa fb fmt, decodeWord (fetch s).1 = .add fa fb fmt ∨
      decodeWord (fetch s).1 = .sub fa fb fmt) ∧
    (t.OF ≠ s.OF → ∃ fa fb fmt, decodeWord (fetch s).1 = .add fa fb fmt ∨
      decodeWord (fetch s).1 = .sub fa fb fmt ∨ decodeWord (fetch s).1 = .mul fa fb fmt ∨
      decodeWord (fetch s).1 = .div fa fb fmt)) ∧
  (∀ (op : HostOp) (s t : State) (ans : HostAnswer), hostOp op s = .next (t, ans) →
    (op = .init ∨ op = .reset → t.CF = false ∧ t.OF = false) ∧
    (op ≠ .init → op ≠ .reset → op ≠ .step → (∀ n, op ≠ .run n) → t.CF = s.CF ∧ t.OF = s.OF))

/-! ### Addresses and the cache -/

/-- Rule R40: the three fields of every address as numbers, the overlap of offset and index, and
`a = tag * 64 + index`. -/
def Obligations.AddressDecomposition : Prop :=
  ∀ a : Addr, (tagOf a).toNat = a.toNat / 64 ∧ (indexOf a).toNat = a.toNat % 64 ∧
    (offsetOf a).toNat = a.toNat % 4 ∧ (offsetOf a).toNat = (indexOf a).toNat % 4 ∧
    a.toNat = (tagOf a).toNat * 64 + (indexOf a).toNat

/-- A line answers hits for exactly one address, the one made of its tag and its number, and two addresses with
the same index and tag are the same address (20_memory.md section 1, derived there). -/
def Obligations.LineHitsOneAddress : Prop :=
  (∀ a b : Addr, indexOf a = indexOf b → tagOf a = tagOf b → a = b) ∧
  (∀ (s : State) (a : Addr), s.hit a = true ↔
    (s.line (indexOf a)).valid = true ∧ lineAddr (s.line (indexOf a)).tag (indexOf a) = a) ∧
  (∀ (s : State) (a b : Addr), s.hit a = true → s.hit b = true → indexOf a = indexOf b → a = b)

/-- The four addresses of one aligned block have one tag and one base and four different lines, `index` of the
base plus 0 to 3 (20_memory.md section 1, derived there; conflict C4). -/
def Obligations.BlockHasFourAliasLines : Prop :=
  ∀ (a : Addr) (o p : Offset),
    tagOf (alignedBase a + o.setWidth 16) = tagOf a ∧
    alignedBase (alignedBase a + o.setWidth 16) = alignedBase a ∧
    (indexOf (alignedBase a + o.setWidth 16)).toNat = (indexOf (alignedBase a)).toNat + o.toNat ∧
    (o ≠ p → indexOf (alignedBase a + o.setWidth 16) ≠ indexOf (alignedBase a + p.setWidth 16))

/-- `CacheRead` (20_memory.md section 2): a read hit returns the line's byte and changes nothing; a read miss returns
`mem[a]`, leaves the line valid, clean, with `a`'s tag and block, leaves every other line, and changes `mem` only
by the write-back of the old line if that was valid and dirty; registers and flags are unchanged. Where the
write-back goes is the spec's decision D3. -/
def Obligations.CacheReadHitAndMiss : Prop :=
  ∀ (s : State) (a : Addr),
    (s.hit a = true → s.cacheRead Config.memSize a = (s.lineByte a, s)) ∧
    (s.hit a = false →
      (s.cacheRead Config.memSize a).1 = s.mem.read a ∧
      ((s.cacheRead Config.memSize a).2.line (indexOf a)).tag = tagOf a ∧
      ((s.cacheRead Config.memSize a).2.line (indexOf a)).valid = true ∧
      ((s.cacheRead Config.memSize a).2.line (indexOf a)).dirty = false ∧
      (∀ o : Offset, ((s.cacheRead Config.memSize a).2.line (indexOf a)).block.byteAt o
        = s.mem.read (alignedBase a + o.setWidth 16)) ∧
      (∀ i : LineIndex, i ≠ indexOf a → (s.cacheRead Config.memSize a).2.line i = s.line i) ∧
      ((s.line (indexOf a)).valid = false ∨ (s.line (indexOf a)).dirty = false →
        (s.cacheRead Config.memSize a).2.mem = s.mem) ∧
      ((s.line (indexOf a)).valid = true → (s.line (indexOf a)).dirty = true → s.mem.wf = true →
        (∀ o : Offset, (s.cacheRead Config.memSize a).2.mem.read
            (writeBackBase (s.line (indexOf a)).tag (indexOf a) + o.setWidth 16)
          = (s.line (indexOf a)).block.byteAt o) ∧
        ∀ b : Addr, alignedBase b ≠ writeBackBase (s.line (indexOf a)).tag (indexOf a) →
          (s.cacheRead Config.memSize a).2.mem.read b = s.mem.read b)) ∧
    (s.cacheRead Config.memSize a).2.pc = s.pc ∧ (s.cacheRead Config.memSize a).2.regs = s.regs ∧
    (s.cacheRead Config.memSize a).2.CF = s.CF ∧ (s.cacheRead Config.memSize a).2.OF = s.OF

/-- Rule R47: a cache write is the residence that a read of `a` makes, then the byte and the dirty bit; `mem`
does not get the value; the line is dirty even when the byte was there already. -/
def Obligations.CacheWriteAllocatesAndDirties : Prop :=
  ∀ (s : State) (a : Addr) (v : Byte),
    (s.cacheWrite Config.memSize a v).hit a = true ∧
    ((s.cacheWrite Config.memSize a v).line (indexOf a)).dirty = true ∧
    (s.cacheWrite Config.memSize a v).lineByte a = v ∧
    (∀ o : Offset, o ≠ offsetOf a →
      ((s.cacheWrite Config.memSize a v).line (indexOf a)).block.byteAt o
        = ((s.cacheRead Config.memSize a).2.line (indexOf a)).block.byteAt o) ∧
    (∀ i : LineIndex, i ≠ indexOf a → (s.cacheWrite Config.memSize a v).line i = s.line i) ∧
    (s.cacheWrite Config.memSize a v).mem = (s.cacheRead Config.memSize a).2.mem ∧
    (s.cacheWrite Config.memSize a v).pc = s.pc ∧ (s.cacheWrite Config.memSize a v).regs = s.regs ∧
    (s.cacheWrite Config.memSize a v).CF = s.CF ∧ (s.cacheWrite Config.memSize a v).OF = s.OF

/-- OutOfBounds (20_memory.md section 3, 60_exceptions.md section 1): at and above the store's size, whatever it is, a
read is 0 and touches nothing and a write does nothing; below it they are the cache's; no 16-bit address, and no
address a fetch forms, is out of this hardware's bounds. That the size is an argument is the model's choice (log
entry 5, DESIGN CHOICE), and that the condition is unreachable with 16-bit addresses the spec derives. -/
def Obligations.OutOfBoundsDegrades : Prop :=
  (∀ (size a : Nat) (v : Byte) (s : State),
    (size ≤ a → s.memRead size a = (0, s) ∧ s.memWrite size a v = s) ∧
    (a < size → s.memRead size a = s.cacheRead size (BitVec.ofNat 16 a) ∧
      s.memWrite size a v = s.cacheWrite size (BitVec.ofNat 16 a) v)) ∧
  (∀ a : Addr, a.toNat < Config.memSize) ∧
  (∀ s : State, s.terminal = false → s.pc.toNat + 1 < Config.memSize)

/-- CacheBoundaryOverrun (60_exceptions.md section 1), for a store of any size (log entry 5, DESIGN CHOICE): a fill
past the end leaves the line valid, clean, tagged and zero; a write-back past the end writes nothing, so the dirty
data is lost when the line is refilled or flushed (the flush leaves the memory it leaves when the line is not
dirty); neither happens with 65536 bytes. The write-back's base is the spec's decision D3, the zero-fill of all
four bytes D24; that it is unreachable here the spec derives. -/
def Obligations.CacheBoundaryOverrunDegrades : Prop :=
  (∀ (size : Nat) (a : Addr) (s : State), size < (alignedBase a).toNat + 4 →
    (s.miss size a).line (indexOf a) = ⟨tagOf a, zeroBlock, true, false⟩) ∧
  (∀ (size : Nat) (i : LineIndex) (s : State), size < (writeBackBase (s.line i).tag i).toNat + 4 →
    s.writeBack size i = s) ∧
  (∀ (size : Nat) (a : Addr) (s : State),
    size < (writeBackBase (s.line (indexOf a)).tag (indexOf a)).toNat + 4 → (s.miss size a).mem = s.mem) ∧
  (∀ (size : Nat) (i : LineIndex) (s : State), size < (writeBackBase (s.line i).tag i).toNat + 4 →
    (s.cacheFlush size).mem = ((s.setLine i { s.line i with dirty := false }).cacheFlush size).mem ∧
    ((s.cacheFlush size).line i).valid = false ∧ ((s.cacheFlush size).line i).dirty = false) ∧
  (∀ a : Addr, (alignedBase a).toNat + 4 ≤ Config.memSize)

/-- The view lemma (20_memory.md section 4, derived there): a read returns the view of its address before it and
leaves that view, and after a write the view is the value written. -/
def Obligations.ReadReturnsView : Prop :=
  ∀ (s : State) (a : Addr) (v : Byte),
    (s.memRead Config.memSize a.toNat).1 = s.view a ∧
    (s.memRead Config.memSize a.toNat).2.view a = s.view a ∧
    (s.memWrite Config.memSize a.toNat v).view a = v ∧
    ((s.memWrite Config.memSize a.toNat v).memRead Config.memSize a.toNat).1 = v

/-- The document's property "Eviction write-back" (20_memory.md section 2, 95_test_vectors.md S6): writing `a`
and then a different address of the same line leaves `a`'s block in the backing store as the line held it, the
written value at `a`. Where the block goes is the spec's decision D3. -/
def Obligations.EvictionWritesBack : Prop :=
  ∀ (s : State) (a b : Addr) (v w : Byte), s.mem.wf = true → indexOf b = indexOf a → tagOf b ≠ tagOf a →
    ((s.cacheWrite Config.memSize a v).cacheWrite Config.memSize b w).mem.read a = v ∧
    ∀ o : Offset,
      ((s.cacheWrite Config.memSize a v).cacheWrite Config.memSize b w).mem.read (alignedBase a + o.setWidth 16)
        = ((s.cacheWrite Config.memSize a v).line (indexOf a)).block.byteAt o

/-- The flush (20_memory.md section 2; its order and what tags and blocks keep are the spec's decision D16):
every line ends invalid and clean with its tag and block; a dirty line's block is in the backing store unless a
higher-numbered dirty line holds the same block; bytes of no dirty line's block are unchanged; every view is
then the backing store's byte; registers and flags are unchanged. -/
def Obligations.FlushDrainsDirtyLines : Prop :=
  ∀ s : State, s.mem.wf = true →
    (∀ i : LineIndex, (s.cacheFlush Config.memSize).line i = { s.line i with valid := false, dirty := false }) ∧
    (∀ i : LineIndex, (s.line i).valid = true → (s.line i).dirty = true →
      (∀ j : LineIndex, i.toNat < j.toNat → (s.line j).valid = true → (s.line j).dirty = true →
        writeBackBase (s.line j).tag j ≠ writeBackBase (s.line i).tag i) →
      ∀ o : Offset, (s.cacheFlush Config.memSize).mem.read (writeBackBase (s.line i).tag i + o.setWidth 16)
        = (s.line i).block.byteAt o) ∧
    (∀ a : Addr, (∀ i : LineIndex, (s.line i).valid = true → (s.line i).dirty = true →
        writeBackBase (s.line i).tag i ≠ alignedBase a) →
      (s.cacheFlush Config.memSize).mem.read a = s.mem.read a) ∧
    (∀ a : Addr, (s.cacheFlush Config.memSize).view a = (s.cacheFlush Config.memSize).mem.read a) ∧
    (s.cacheFlush Config.memSize).pc = s.pc ∧ (s.cacheFlush Config.memSize).regs = s.regs ∧
    (s.cacheFlush Config.memSize).CF = s.CF ∧ (s.cacheFlush Config.memSize).OF = s.OF

/-- A MOVM store is seen by a later fetch of its address exactly when the address does not hit, and no other
address's view changes (20_memory.md section 7, derived there; the address is decision D10). -/
def Obligations.DirectStoreSeenIffNotResident : Prop :=
  ∀ (fd : BitVec 4) (imm8 : Byte) (s : State), s.mem.wf = true →
    ∃ t, exec (.movm fd imm8) s = .next t ∧
      ∀ a : Addr, t.view a = if a = movmAddr fd ∧ s.hit a = false then imm8 else s.view a

/-- Rule R188: the host's memory ports are `MemRead` and `MemWrite`, and `mem_write` is the only operation that
can make a line dirty, which it does to its own line and no other; no instruction can; and a memory read is not a
pure read: it can change the state. -/
def Obligations.OnlyMemWriteMakesDirty : Prop :=
  (∀ (a : Nat) (v : Byte) (s : State),
    hostOp (.memRead a) s
      = .next ((s.memRead Config.memSize a).2, .byte (s.memRead Config.memSize a).1) ∧
    hostOp (.memWrite a v) s = .next (s.memWrite Config.memSize a v, .nothing) ∧
    ∀ i : LineIndex, i ≠ indexOf (BitVec.ofNat 16 a) →
      ((s.memWrite Config.memSize a v).line i).dirty = true → (s.line i).dirty = true) ∧
  (∀ (a : Nat) (v : Byte) (s : State), a < Config.memSize →
    ((s.memWrite Config.memSize a v).line (indexOf (BitVec.ofNat 16 a))).dirty = true) ∧
  (∃ (a : Nat) (s t : State) (ans : HostAnswer), hostOp (.memRead a) s = .next (t, ans) ∧ t ≠ s) ∧
  (∀ (s t : State) (i : LineIndex), step s = .next t → (t.line i).dirty = true → (s.line i).dirty = true) ∧
  (∀ (op : HostOp) (s t : State) (ans : HostAnswer) (i : LineIndex), (∀ a v, op ≠ .memWrite a v) →
    hostOp op s = .next (t, ans) → (t.line i).dirty = true → (s.line i).dirty = true)

/-! ### The instruction cycle -/

/-- A step runs the instruction the two bytes at `pc` decode to, as the fetch sees them, on the state the fetch
leaves; in a terminal state it runs nothing (42_cycle.md sections 1 and 2). That a terminal step leaves the whole
state, the fetch reading nothing, is the spec's decision D13 (log entry 19). -/
def Obligations.StepRunsDecodedInstruction : Prop :=
  (∀ (s : State) (i : Instr) (rest : List Byte), s.pc.toNat < 65535 →
    decodeBytes [s.view (s.pc.setWidth 16), s.view (s.pc.setWidth 16 + 1#16)] = .ok (i, rest) →
    step s = exec i (fetch s).2) ∧
  (∀ s : State, 65535 ≤ s.pc.toNat → step s = .next s)

/-- `step` (42_cycle.md section 2): a step fetches, and if the word is not zero decodes and executes it; a zero word
does nothing more and `pc` is not changed (decision D2). After every decoded instruction, the unrecognised ones
too, `pc` has advanced by 2. -/
def Obligations.StepFetchesThenExecutes : Prop :=
  (∀ s : State, (fetch s).1 ≠ 0 → step s = exec (decodeWord (fetch s).1) (fetch s).2) ∧
  (∀ s : State, (fetch s).1 = 0 → step s = .next (fetch s).2 ∧ (fetch s).2.pc = s.pc) ∧
  (∀ (w : Word) (s : State), w ≠ 0 → ∃ t, exec (decodeWord w) s = .next t ∧ t.pc = s.pc + 2#17)

/-- The fetch (42_cycle.md section 1): the two bytes through the cache, high byte first, each with its value
before the fetch; both addresses resident afterwards, no other line touched; `pc`, registers and flags unchanged.
That the high byte is read first and a terminal fetch reads nothing is the spec's decision D13. -/
def Obligations.FetchReadsTwoBytesBigEndian : Prop :=
  ∀ s : State,
    (s.pc.toNat < 65535 →
      (fetch s).1.toNat
        = (s.view (s.pc.setWidth 16)).toNat * 256 + (s.view (s.pc.setWidth 16 + 1#16)).toNat ∧
      (fetch s).2.hit (s.pc.setWidth 16) = true ∧ (fetch s).2.hit (s.pc.setWidth 16 + 1#16) = true ∧
      ∀ i : LineIndex, i ≠ indexOf (s.pc.setWidth 16) → i ≠ indexOf (s.pc.setWidth 16 + 1#16) →
        (fetch s).2.line i = s.line i) ∧
    (65535 ≤ s.pc.toNat → fetch s = (0, s)) ∧
    (fetch s).2.pc = s.pc ∧ (fetch s).2.regs = s.regs ∧ (fetch s).2.CF = s.CF ∧ (fetch s).2.OF = s.OF

/-- The terminal condition (42_cycle.md section 1): in a terminal state the fetch returns the zero word without
touching anything, `step` changes nothing and `run` performs no step; only `reset` and `init` leave it; the only
terminal `pc` that the invariant of the reachable states allows is 65536. That no read happens is the spec's
decision D13, the width of `pc` D1. -/
def Obligations.TerminalStateStays : Prop :=
  ∀ s : State, 65535 ≤ s.pc.toNat →
    fetch s = (0, s) ∧ step s = .next s ∧ (∀ n, run n s = .next s) ∧
    (∀ (op : HostOp) (t : State) (ans : HostAnswer), hostOp op s = .next (t, ans) →
      (op ≠ .init → op ≠ .reset → t.terminal = true) ∧ (op = .init ∨ op = .reset → t.terminal = false)) ∧
    (s.Inv → s.pc.toNat = 65536)

/-- A core halted in place stays so: a step changes no register, flag or `pc`, and the state after it is a fixed
point of `step` (42_cycle.md section 3, derived there; decision D2). -/
def Obligations.HaltedInPlaceReachesFixedPoint : Prop :=
  ∀ s : State, s.HaltedInPlace →
    ∃ t, step s = .next t ∧ t.pc = s.pc ∧ t.regs = s.regs ∧ t.CF = s.CF ∧ t.OF = s.OF ∧
      t.HaltedInPlace ∧ t.FixedPoint

/-- The fixed points of `step` are exactly the terminal states and the states halted in place whose two fetch
lines hit (42_cycle.md sections 1, 3 and 6; decision D2). -/
def Obligations.FixedPointsAreTheEnds : Prop :=
  ∀ s : State, s.FixedPoint ↔
    65535 ≤ s.pc.toNat ∨
      (s.HaltedInPlace ∧ s.hit (s.pc.setWidth 16) = true ∧ s.hit (s.pc.setWidth 16 + 1#16) = true)

/-- The only changes to `pc` (42_cycle.md section 6) are `+ 2`, no change, and zero by `reset` and `init`; a run adds
2 at most once a step. That the sum never wraps rests on the spec's decision D1, the 17 bits of `pc`, and the spec
derives it (log entry 11, DESIGN CHOICE); that `init` zeroes `pc` is D15 (log entry 20), that a zero word leaves
it D2 (log entry 12). -/
def Obligations.PcChangesOnlyForward : Prop :=
  (∀ s t : State, step s = .next t → t.pc = s.pc ∨ t.pc.toNat = s.pc.toNat + 2) ∧
  (∀ (n : Nat) (s t : State), run n s = .next t → ∃ k, k ≤ n ∧ t.pc.toNat = s.pc.toNat + 2 * k) ∧
  (∀ (op : HostOp) (s t : State) (ans : HostAnswer), hostOp op s = .next (t, ans) →
    (op = .init ∨ op = .reset → t.pc = 0) ∧
    (op ≠ .init → op ≠ .reset → op ≠ .step → (∀ n, op ≠ .run n) → t.pc = s.pc))

/-- `run(n)` is `n` consecutive steps, and running `m + n` steps is running `m` and then `n` (42_cycle.md
section 4, derived there; the loop's form is the spec's decision D23). -/
def Obligations.RunIsConsecutiveSteps : Prop :=
  (∀ (n : Nat) (s : State), run n s = Sys2Proof.core.run n s) ∧
  (∀ (m n : Nat) (s t : State), run m s = .next t → run (m + n) s = run n t)

/-- A program that starts with no dirty line stores only to the addresses MOVM can name, 0 and 8 to 15, however
long it runs, and never makes a line dirty: the cache writes nothing back (20_memory.md sections 4 and 6; the
addresses are decision D10). -/
def Obligations.RunStoresOnlyToMovmAddresses : Prop :=
  ∀ (n : Nat) (s t : State), s.NoDirty → run n s = .next t →
    t.NoDirty ∧ ∀ a : Addr, (1 ≤ a.toNat ∧ a.toNat ≤ 7) ∨ 16 ≤ a.toNat → t.mem.read a = s.mem.read a

/-! ### The machine as a whole -/

/-- Rule R6: from every state every operation of the interface has exactly one next state; nothing faults and
nothing is refused. -/
def Obligations.EveryOperationHasOneNextState : Prop :=
  (∀ s : State, ∃ t, step s = .next t ∧ ∀ u, step s = .next u → u = t) ∧
  (∀ (op : HostOp) (s : State), ∃ p, hostOp op s = .next p ∧ ∀ q, hostOp op s = .next q → q = p) ∧
  (∀ (ops : List HostOp) (s : State), ∃ t, hostRun ops s = .next t)

/-- Rule R18: `dirty` implies `valid` in every state that any sequence of operations reaches from a state where
it holds, as it does after `init`; and the state each kind of line is entered by. -/
def Obligations.DirtyImpliesValidAlways : Prop :=
  (∀ (ops : List HostOp) (s t : State), (∀ i, (s.line i).dirty = true → (s.line i).valid = true) →
    hostRun ops s = .next t → ∀ i, (t.line i).dirty = true → (t.line i).valid = true) ∧
  (∀ (s : State) (i : LineIndex), (s.hostInit.line i).valid = false ∧ (s.hostInit.line i).dirty = false ∧
    ((s.cacheFlush Config.memSize).line i).valid = false ∧
    ((s.cacheFlush Config.memSize).line i).dirty = false) ∧
  (∀ (s : State) (a : Addr), ((s.miss Config.memSize a).line (indexOf a)).valid = true ∧
    ((s.miss Config.memSize a).line (indexOf a)).dirty = false) ∧
  (∀ (s : State) (a : Addr) (v : Byte), ((s.cacheWrite Config.memSize a v).line (indexOf a)).valid = true ∧
    ((s.cacheWrite Config.memSize a v).line (indexOf a)).dirty = true)

/-- Every step keeps the machine's invariant: memory canonical, `dirty` implies `valid`, `pc` even and at most
65536 (10_state.md sections 3, 5 and 6; the canonical form is the model's, and the bound on `pc` rests on
its 17 bits, the spec's decision D1, log entry 11). -/
def Obligations.StepKeepsInvariant : Prop :=
  ∀ s t : State, s.Inv → step s = .next t → t.Inv

/-- The invariant holds after `init` (10_state.md section 8), the state that log entry 1 takes as the reset state. -/
def Obligations.ResetMeetsInvariant : Prop := State.reset.Inv

/-- Every operation of the interface, and so every sequence of them, keeps the invariant (10_state.md sections 3 and 5,
70_reset_and_hazards.md sections 1 and 2). The canonical form is the model's; that `pc` is even the spec derives from
rules R13 and R14, and its bound rests on its 17 bits, the spec's decision D1 (log entry 11). -/
def Obligations.EveryOperationKeepsInvariant : Prop :=
  (∀ (op : HostOp) (s t : State) (ans : HostAnswer), s.Inv → hostOp op s = .next (t, ans) → t.Inv) ∧
  (∀ (ops : List HostOp) (s t : State), s.Inv → hostRun ops s = .next t → t.Inv)

/-- Idempotence (70_reset_and_hazards.md section 2): `init`, `reset`, `cache_flush` and `load_program` done twice are
done once, `reset` always yields the same zeroed registers, a step done twice is done once only at an end of the
run, and `dirty` implies `valid` after every operation. Memory's canonical form is the model's premise for the
load. The step clause is the model's reading of the spec's sentence: it speaks of the state after the step, a
further step from it changing nothing exactly when it is an end of the run. Its terminal case rests on the spec's
decision D13 (log entry 19), its halted case on D2 (log entry 12) and on what the spec derives of a halted state.
What `init` and `reset` cover is D15 (log entry 20). -/
def Obligations.OperationsAreIdempotent : Prop :=
  (∀ s : State, s.hostInit.hostInit = s.hostInit ∧ s.hostReset.hostReset = s.hostReset) ∧
  (∀ s : State, (s.cacheFlush Config.memSize).cacheFlush Config.memSize = s.cacheFlush Config.memSize) ∧
  (∀ (s : State) (bytes : List Byte), s.mem.wf = true →
    (s.loadProgram bytes).2.loadProgram bytes = s.loadProgram bytes) ∧
  (∀ s u : State, s.hostReset.pc = u.hostReset.pc ∧ s.hostReset.regs = u.hostReset.regs ∧
    s.hostReset.CF = u.hostReset.CF ∧ s.hostReset.OF = u.hostReset.OF) ∧
  (∀ s t : State, step s = .next t → (step t = .next t ↔ t.Ended)) ∧
  (∀ (op : HostOp) (s t : State) (ans : HostAnswer), (∀ i, (s.line i).dirty = true → (s.line i).valid = true) →
    hostOp op s = .next (t, ans) → ∀ i, (t.line i).dirty = true → (t.line i).valid = true)

/-- `init` gives every piece of state its value from any state, and `reset` gives the register file its values
and leaves the cache and memory (10_state.md section 8; which operation covers what is the spec's decision D15,
the lines' tags and blocks D17; that the model's reset state is the one after `init` is log entry 1). -/
def Obligations.InitAndResetValues : Prop :=
  (∀ s : State, hostOp .init s = .next (State.reset, .nothing)) ∧
  (State.reset.pc = 0 ∧ (∀ i : RegIndex, State.reset.readReg i = 0) ∧ State.reset.CF = false ∧
    State.reset.OF = false ∧ (∀ a : Addr, State.reset.mem.read a = 0) ∧
    ∀ (k : LineIndex) (o : Offset), (State.reset.line k).valid = false ∧ (State.reset.line k).dirty = false ∧
      (State.reset.line k).tag = 0 ∧ (State.reset.line k).block.byteAt o = 0) ∧
  (∀ s : State, ∃ t, hostOp .reset s = .next (t, .nothing) ∧ t.pc = 0 ∧ (∀ i : RegIndex, t.readReg i = 0) ∧
    t.CF = false ∧ t.OF = false ∧ t.cache = s.cache ∧ t.mem = s.mem)

/-- `load_program` (70_reset_and_hazards.md section 3): a buffer longer than the store is rejected with no change;
any other is accepted and lies in the backing store from address 0, every other byte, the cache, the registers,
the flags and `pc` unchanged (the direct path is the spec's decision D14). -/
def Obligations.LoadProgramCopiesVerbatim : Prop :=
  ∀ (bytes : List Byte) (s : State),
    (65536 < bytes.length → hostOp (.loadProgram bytes) s = .next (s, .rejected)) ∧
    (bytes.length ≤ 65536 → s.mem.wf = true → ∃ t, hostOp (.loadProgram bytes) s = .next (t, .accepted) ∧
      (∀ a : Addr, t.mem.read a = if a.toNat < bytes.length then bytes.getD a.toNat 0 else s.mem.read a) ∧
      t.cache = s.cache ∧ t.regs = s.regs ∧ t.pc = s.pc ∧ t.CF = s.CF ∧ t.OF = s.OF)

/-- The boot order (70_reset_and_hazards.md section 5): after `init` and `load_program` of two bytes or more, from
any state, the core is at `pc = 0` with everything zero, every line invalid, every fetch sees the program, and
the first step runs the instruction in its first two bytes (D14, D15). -/
def Obligations.BootFetchesTheProgram : Prop :=
  ∀ (b0 b1 : Byte) (bytes : List Byte) (s : State), bytes.length + 2 ≤ 65536 →
    ∃ t, hostRun [.init, .loadProgram (b0 :: b1 :: bytes)] s = .next t ∧
      t.Inv ∧ t.pc = 0 ∧ (∀ i : RegIndex, t.readReg i = 0) ∧ t.CF = false ∧ t.OF = false ∧
      (∀ k : LineIndex, (t.line k).valid = false) ∧
      (∀ a : Addr, t.view a = (b0 :: b1 :: bytes).getD a.toNat 0) ∧
      step t = exec (decodeWord (b0 ++ b1)) (fetch t).2

/-- The cache snapshot returns all 64 lines as stored and changes nothing; and the register snapshot returns `pc`,
`x[1]` to `x[7]` and the flags and changes nothing (70_reset_and_hazards.md section 4). That they are pure reads
of the state is the spec's decision D18. -/
def Obligations.SnapshotsArePure : Prop :=
  ∀ s : State,
    (∃ x : Vector Byte 7, hostOp .regSnapshot s = .next (s, .registers s.pc x s.CF s.OF) ∧
      ∀ (k : Nat) (h : k < 7), x[k] = s.readReg (BitVec.ofNat 4 (k + 1))) ∧
    (∃ l : Vector Line 64, hostOp .cacheSnapshot s = .next (s, .lines l) ∧
      ∀ (k : Nat) (h : k < 64), l[k] = s.line (BitVec.ofNat 6 k))

/-- The memory snapshot (70_reset_and_hazards.md section 4): the bytes of the range that exist, raw, with no cache
access and no change (raw reading is the spec's decision D18). -/
def Obligations.MemorySnapshotIsRaw : Prop :=
  ∀ (a n : Nat) (s : State),
    ∃ l, hostOp (.memSnapshot a n) s = .next (s, .bytes l) ∧ l.length = min n (65536 - a) ∧
      ∀ (k : Nat) (h : k < l.length), l[k] = s.mem.read (BitVec.ofNat 16 (a + k))
end

