-- ==== Sys2Proof/Laws/Address.lean ====
section
/-! SUPPORT. The address decoder on numbers (20_memory.md rules R40, R41) and the aligned blocks. -/

namespace Sys2Proof.Machine

/-- The store's size as a number. -/
theorem memSize_eq : Config.memSize = 65536 := rfl

theorem tagOf_toNat (a : Addr) : (tagOf a).toNat = a.toNat / 64 := by
  simp [tagOf, Nat.shiftRight_eq_div_pow]; omega

theorem indexOf_toNat (a : Addr) : (indexOf a).toNat = a.toNat % 64 := by simp [indexOf]

theorem offsetOf_toNat (a : Addr) : (offsetOf a).toNat = a.toNat % 4 := by simp [offsetOf]

theorem lineAddr_toNat (t : Tag) (i : LineIndex) : (lineAddr t i).toNat = t.toNat * 64 + i.toNat := by
  have := i.isLt
  rw [lineAddr, BitVec.toNat_append, ← Nat.shiftLeft_add_eq_or_of_lt this, Nat.shiftLeft_eq]

/-- `a = tag * 64 + index` (rule R40). -/
theorem lineAddr_tagOf_indexOf (a : Addr) : lineAddr (tagOf a) (indexOf a) = a :=
  BitVec.eq_of_toNat_eq (by rw [lineAddr_toNat, tagOf_toNat, indexOf_toNat]; omega)

theorem tagOf_lineAddr (t : Tag) (i : LineIndex) : tagOf (lineAddr t i) = t :=
  BitVec.eq_of_toNat_eq (by have := i.isLt; rw [tagOf_toNat, lineAddr_toNat]; omega)

theorem indexOf_lineAddr (t : Tag) (i : LineIndex) : indexOf (lineAddr t i) = i :=
  BitVec.eq_of_toNat_eq (by have := i.isLt; rw [indexOf_toNat, lineAddr_toNat]; omega)

theorem alignedBase_toNat (a : Addr) : (alignedBase a).toNat = a.toNat - a.toNat % 4 := by
  have := a.isLt
  have := offsetOf_toNat a
  rw [alignedBase, BitVec.toNat_sub_of_le] <;> simp [BitVec.le_def] <;> omega

/-- The aligned base plus the offset is the address. -/
theorem alignedBase_add_offsetOf (a : Addr) : alignedBase a + (offsetOf a).setWidth 16 = a := by
  simp [alignedBase]

theorem alignedBase_add_toNat (a : Addr) (o : Offset) :
    (alignedBase a + o.setWidth 16).toNat = a.toNat - a.toNat % 4 + o.toNat := by
  have := a.isLt
  have := o.isLt
  rw [BitVec.toNat_add, alignedBase_toNat]; simp; omega

/-- Every byte of an aligned block has the block's tag. -/
theorem tagOf_alignedBase_add (a : Addr) (o : Offset) : tagOf (alignedBase a + o.setWidth 16) = tagOf a :=
  BitVec.eq_of_toNat_eq (by
    have := o.isLt; rw [tagOf_toNat, tagOf_toNat, alignedBase_add_toNat]; omega)

/-- Every byte of an aligned block has the block's aligned base. -/
theorem alignedBase_alignedBase_add (a : Addr) (o : Offset) :
    alignedBase (alignedBase a + o.setWidth 16) = alignedBase a :=
  BitVec.eq_of_toNat_eq (by
    have := o.isLt; rw [alignedBase_toNat, alignedBase_toNat, alignedBase_add_toNat]; omega)

/-- No aligned block reaches past the store of this hardware (rule R44). -/
theorem alignedBase_bound (a : Addr) : (alignedBase a).toNat + 4 ≤ Config.memSize := by
  have := a.isLt; rw [alignedBase_toNat, Config.memSize]; omega

/-- The block a line is written back to is the block of the address that filled it. -/
theorem writeBackBase_tagOf_indexOf (a : Addr) : writeBackBase (tagOf a) (indexOf a) = alignedBase a := by
  rw [writeBackBase, lineAddr_tagOf_indexOf]

end Sys2Proof.Machine
end

