-- ==== Sys2Proof/Laws/Memory.lean ====
section
/-! SUPPORT. The laws of the backing store: read after write, what a write leaves alone, that every write keeps
the canonical form, and that canonical memories with the same bytes are the same list. -/

namespace Sys2Proof.Machine

theorem Memory.wfFrom_mono {lo lo' : Nat} {m : Memory} (h : lo' ≤ lo) (hm : Memory.wfFrom lo m = true) :
    Memory.wfFrom lo' m = true := by
  cases m with
  | nil => rfl
  | cons c m =>
    simp only [Memory.wfFrom, Bool.and_eq_true, decide_eq_true_eq] at hm ⊢
    exact ⟨⟨⟨by omega, hm.1.1.2⟩, hm.1.2⟩, hm.2⟩

theorem Memory.lookup_below {lo a : Nat} {m : Memory} (hm : Memory.wfFrom lo m = true) (h : a < lo) :
    Memory.lookup m a = unlistedByte := by
  induction m generalizing lo with
  | nil => rfl
  | cons c m ih =>
    simp only [Memory.wfFrom, Bool.and_eq_true, decide_eq_true_eq] at hm
    rw [Memory.lookup, if_neg (by omega)]
    exact ih hm.2 (by omega)

theorem Memory.lookup_insert_same {lo : Nat} {m : Memory} (a : Nat) (v : Byte) (hm : Memory.wfFrom lo m = true) :
    Memory.lookup (Memory.insert m a v) a = v := by
  induction m generalizing lo with
  | nil => by_cases hv : v = unlistedByte <;> simp [Memory.insert, Memory.lookup, hv]
  | cons c m ih =>
    have hm' := hm
    simp only [Memory.wfFrom, Bool.and_eq_true, decide_eq_true_eq, bne_iff_ne] at hm
    rw [Memory.insert]
    split
    · split
      · next hv =>
        rw [hv]
        exact Memory.lookup_below (lo := c.1) (m := c :: m) (by simpa [Memory.wfFrom] using ⟨hm.1.imp_left And.right, hm.2⟩) ‹_›
      · simp [Memory.lookup]
    · split
      · split
        · next hv => rw [hv]; exact Memory.lookup_below hm.2 (by omega)
        · simp [Memory.lookup]
      · rw [Memory.lookup, if_neg (by omega)]
        exact ih hm.2

theorem Memory.lookup_insert_other (m : Memory) {a b : Nat} (v : Byte) (h : b ≠ a) :
    Memory.lookup (Memory.insert m a v) b = Memory.lookup m b := by
  induction m with
  | nil => by_cases hv : v = unlistedByte <;> simp [Memory.insert, Memory.lookup, hv, h.symm]
  | cons c m ih =>
    rw [Memory.insert]
    split
    · split <;> simp [Memory.lookup, h.symm]
    · split
      · have hc : ¬ c.1 = b := by omega
        split <;> simp [Memory.lookup, hc, h.symm]
      · simp [Memory.lookup, ih]

theorem Memory.wfFrom_insert {lo a : Nat} {m : Memory} (v : Byte) (hlo : lo ≤ a) (ha : a < 65536)
    (hm : Memory.wfFrom lo m = true) : Memory.wfFrom lo (Memory.insert m a v) = true := by
  induction m generalizing lo with
  | nil => by_cases hv : v = unlistedByte <;> simp [Memory.insert, Memory.wfFrom, hv, hlo, ha]
  | cons c m ih =>
    have hm' := hm
    simp only [Memory.wfFrom, Bool.and_eq_true, decide_eq_true_eq, bne_iff_ne] at hm
    rw [Memory.insert]
    split
    · split
      · exact hm'
      · next hv => simp [Memory.wfFrom, hv, hlo, ha, hm]; omega
    · split
      · split
        · exact Memory.wfFrom_mono (by omega) hm.2
        · next hv => subst_vars; simp [Memory.wfFrom, hv, hm]
      · simp [Memory.wfFrom, hm, ih (lo := c.1 + 1) (by omega) hm.2]

theorem Memory.eq_of_lookup {lo : Nat} {m n : Memory} (hm : Memory.wfFrom lo m = true) (hn : Memory.wfFrom lo n = true)
    (h : ∀ a, a < 65536 → Memory.lookup m a = Memory.lookup n a) : m = n := by
  induction m generalizing lo n with
  | nil =>
    cases n with
    | nil => rfl
    | cons d n =>
      simp only [Memory.wfFrom, Bool.and_eq_true, decide_eq_true_eq, bne_iff_ne] at hn
      have := h d.1 (by omega)
      simp [Memory.lookup] at this
      exact absurd this.symm hn.1.2
  | cons c m ih =>
    have hm' := hm
    simp only [Memory.wfFrom, Bool.and_eq_true, decide_eq_true_eq, bne_iff_ne] at hm
    cases n with
    | nil =>
      have := h c.1 (by omega)
      simp [Memory.lookup] at this
      exact absurd this hm.1.2
    | cons d n =>
      have hn' := hn
      simp only [Memory.wfFrom, Bool.and_eq_true, decide_eq_true_eq, bne_iff_ne] at hn
      have hkey : c.1 = d.1 := by
        rcases Nat.lt_trichotomy c.1 d.1 with hlt | heq | hgt
        · have := h c.1 (by omega)
          rw [Memory.lookup_below (lo := d.1) (m := d :: n) (by simp [Memory.wfFrom, hn]) hlt] at this
          simp [Memory.lookup] at this
          exact absurd this hm.1.2
        · exact heq
        · have := h d.1 (by omega)
          rw [Memory.lookup_below (lo := c.1) (m := c :: m) (by simp [Memory.wfFrom, hm]) hgt] at this
          simp [Memory.lookup] at this
          exact absurd this.symm hn.1.2
      have hval : c.2 = d.2 := by simpa [Memory.lookup, hkey] using h c.1 (by omega)
      have htail : m = n := by
        refine ih hm.2 (hkey ▸ hn.2) fun a ha => ?_
        by_cases hac : a = c.1
        · rw [Memory.lookup_below hm.2 (by omega), Memory.lookup_below hn.2 (by omega)]
        · simpa [Memory.lookup, hkey, show ¬ d.1 = a by omega] using h a ha
      rw [htail, Prod.ext hkey hval]

/-- Reading an address after writing it gives the value written. -/
theorem Memory.read_write_same {m : Memory} (hm : m.wf = true) (a : Addr) (v : Byte) : (m.write a v).read a = v :=
  Memory.lookup_insert_same _ _ hm

/-- A write leaves every other address alone. -/
theorem Memory.read_write_other (m : Memory) {a b : Addr} (v : Byte) (h : b ≠ a) :
    (m.write a v).read b = m.read b :=
  Memory.lookup_insert_other _ _ fun hab => h (BitVec.eq_of_toNat_eq hab)

/-- A write keeps the canonical form. -/
theorem Memory.wf_write {m : Memory} (hm : m.wf = true) (a : Addr) (v : Byte) : (m.write a v).wf = true :=
  Memory.wfFrom_insert v (Nat.zero_le _) a.isLt hm

/-- Canonical memories that read the same everywhere are equal data. -/
theorem Memory.eq_of_read {m n : Memory} (hm : m.wf = true) (hn : n.wf = true)
    (h : ∀ a : Addr, m.read a = n.read a) : m = n :=
  Memory.eq_of_lookup hm hn fun a ha => by
    simpa [Memory.read, Nat.mod_eq_of_lt ha] using h (BitVec.ofNat 16 a)

/-- Writing the byte that is there changes nothing. -/
theorem Memory.write_read {m : Memory} (hm : m.wf = true) (a : Addr) : m.write a (m.read a) = m :=
  Memory.eq_of_read (Memory.wf_write hm _ _) hm fun b => by
    by_cases h : b = a
    · rw [h, Memory.read_write_same hm]
    · rw [Memory.read_write_other _ _ h]

/-- A block write keeps the canonical form. -/
theorem Memory.wf_writeBlock {m : Memory} (hm : m.wf = true) (base : Addr) (b : Block) :
    (m.writeBlock base b).wf = true :=
  Memory.wf_write (Memory.wf_write (Memory.wf_write (Memory.wf_write hm _ _) _ _) _ _) _ _

/-- A block write leaves every address outside the block alone. -/
theorem Memory.read_writeBlock_other (m : Memory) {base a : Addr} (b : Block)
    (h : ∀ o : Offset, a ≠ base + o.setWidth 16) : (m.writeBlock base b).read a = m.read a := by
  rw [Memory.writeBlock, Memory.read_write_other _ _ (by simpa using h 3), Memory.read_write_other _ _ (by simpa using h 2), Memory.read_write_other _ _ (by simpa using h 1),
    Memory.read_write_other _ _ (by simpa using h 0)]

/-- A block write puts each byte of the block at its offset. -/
theorem Memory.read_writeBlock {m : Memory} (hm : m.wf = true) (base : Addr) (b : Block) (o : Offset) :
    (m.writeBlock base b).read (base + o.setWidth 16) = b.byteAt o := by
  have h0 := Memory.wf_write hm base b[0]
  have h1 := Memory.wf_write h0 (base + 1#16) b[1]
  have h2 := Memory.wf_write h1 (base + 2#16) b[2]
  rw [Memory.writeBlock]
  have ho : o = 0 ∨ o = 1 ∨ o = 2 ∨ o = 3 := by revert o; decide
  rcases ho with rfl | rfl | rfl | rfl
  · rw [Memory.read_write_other _ _ (by simp), Memory.read_write_other _ _ (by simp), Memory.read_write_other _ _ (by simp)]
    simpa [Block.byteAt] using Memory.read_write_same hm base b[0]
  · rw [Memory.read_write_other _ _ (by simp), Memory.read_write_other _ _ (by simp)]
    simpa [Block.byteAt] using Memory.read_write_same h0 (base + 1#16) b[1]
  · rw [Memory.read_write_other _ _ (by simp)]
    simpa [Block.byteAt] using Memory.read_write_same h1 (base + 2#16) b[2]
  · simpa [Block.byteAt] using Memory.read_write_same h2 (base + 3#16) b[3]

/-- A block read gives each byte of the block at its offset. -/
theorem Memory.readBlock_byteAt (m : Memory) (base : Addr) (o : Offset) :
    (m.readBlock base).byteAt o = m.read (base + o.setWidth 16) := by
  have ho : o = 0 ∨ o = 1 ∨ o = 2 ∨ o = 3 := by revert o; decide
  rcases ho with rfl | rfl | rfl | rfl <;> simp [Memory.readBlock, Block.byteAt]

end Sys2Proof.Machine
end

