-- ==== Sys2Proof/Laws/State.lean ====
section
/-! SUPPORT. One lemma for each field of State and each update of it, true by `rfl`, and the laws of the
register-file ports, so that no later proof unfolds a record update. -/

namespace Sys2Proof.Machine

variable (s : State) (i j : RegIndex) (v : Byte) (a : Addr) (out : AluOut) (k : LineIndex) (l : Line)

/-! ### `advancePc` -/

@[simp] theorem State.advancePc_pc : s.advancePc.pc = s.pc + 2#17 := rfl
@[simp] theorem State.advancePc_regs : s.advancePc.regs = s.regs := rfl
@[simp] theorem State.advancePc_CF : s.advancePc.CF = s.CF := rfl
@[simp] theorem State.advancePc_OF : s.advancePc.OF = s.OF := rfl
@[simp] theorem State.advancePc_cache : s.advancePc.cache = s.cache := rfl
@[simp] theorem State.advancePc_mem : s.advancePc.mem = s.mem := rfl
@[simp] theorem State.advancePc_line : s.advancePc.line k = s.line k := rfl
@[simp] theorem State.advancePc_hit : s.advancePc.hit a = s.hit a := rfl
@[simp] theorem State.advancePc_readReg : s.advancePc.readReg i = s.readReg i := rfl

/-! ### `backingWrite` -/

@[simp] theorem State.backingWrite_pc : (s.backingWrite a v).pc = s.pc := rfl
@[simp] theorem State.backingWrite_regs : (s.backingWrite a v).regs = s.regs := rfl
@[simp] theorem State.backingWrite_CF : (s.backingWrite a v).CF = s.CF := rfl
@[simp] theorem State.backingWrite_OF : (s.backingWrite a v).OF = s.OF := rfl
@[simp] theorem State.backingWrite_cache : (s.backingWrite a v).cache = s.cache := rfl
@[simp] theorem State.backingWrite_mem : (s.backingWrite a v).mem = s.mem.write a v := rfl
@[simp] theorem State.backingWrite_line : (s.backingWrite a v).line k = s.line k := rfl
@[simp] theorem State.backingWrite_readReg : (s.backingWrite a v).readReg i = s.readReg i := rfl

/-! ### `setLine` -/

@[simp] theorem State.setLine_pc : (s.setLine k l).pc = s.pc := rfl
@[simp] theorem State.setLine_regs : (s.setLine k l).regs = s.regs := rfl
@[simp] theorem State.setLine_CF : (s.setLine k l).CF = s.CF := rfl
@[simp] theorem State.setLine_OF : (s.setLine k l).OF = s.OF := rfl
@[simp] theorem State.setLine_mem : (s.setLine k l).mem = s.mem := rfl
@[simp] theorem State.setLine_readReg : (s.setLine k l).readReg i = s.readReg i := rfl

@[simp] theorem State.line_setLine_same : (s.setLine k l).line k = l := by simp [State.line, State.setLine]

theorem State.line_setLine_other {k k' : LineIndex} (h : k' ≠ k) : (s.setLine k l).line k' = s.line k' := by
  have : k.toNat ≠ k'.toNat := fun e => h (BitVec.eq_of_toNat_eq e.symm)
  simp [State.line, State.setLine, this]

/-- Two states' caches are equal when their lines are. -/
theorem State.cache_ext {s t : State} (h : ∀ k, s.line k = t.line k) : s.cache = t.cache := by
  ext1 n hn
  have := h (BitVec.ofNat 6 n)
  simpa [State.line, Nat.mod_eq_of_lt (show n < 64 from hn)] using this

/-- Writing back the line that is there changes nothing. -/
@[simp] theorem State.setLine_line : s.setLine k (s.line k) = s := by simp [State.setLine, State.line]

/-! ### The register ports -/

@[simp] theorem State.writeReg_pc : (s.writeReg i v).pc = s.pc := by unfold State.writeReg; split <;> rfl
@[simp] theorem State.writeReg_CF : (s.writeReg i v).CF = s.CF := by unfold State.writeReg; split <;> rfl
@[simp] theorem State.writeReg_OF : (s.writeReg i v).OF = s.OF := by unfold State.writeReg; split <;> rfl
@[simp] theorem State.writeReg_cache : (s.writeReg i v).cache = s.cache := by
  unfold State.writeReg; split <;> rfl
@[simp] theorem State.writeReg_mem : (s.writeReg i v).mem = s.mem := by unfold State.writeReg; split <;> rfl
@[simp] theorem State.writeReg_line : (s.writeReg i v).line k = s.line k := by
  unfold State.writeReg; split <;> rfl

/-- An index that selects no register reads zero. -/
theorem State.readReg_invalid {i : RegIndex} (h : isRegister i = false) : s.readReg i = 0x00#8 := by
  simp [State.readReg, h]

/-- A write through an index that selects no register changes nothing. -/
theorem State.writeReg_invalid {i : RegIndex} (h : isRegister i = false) : s.writeReg i v = s := by
  simp [State.writeReg, h]

theorem State.readReg_writeReg_same {i : RegIndex} (h : isRegister i = true) :
    (s.writeReg i v).readReg i = v := by
  have hi : i.toNat - 1 < 7 := by
    simp only [isRegister, Bool.and_eq_true, decide_eq_true_eq] at h; omega
  simp [State.readReg, State.writeReg, h, Vector.getD, hi]

theorem State.readReg_writeReg_other {i j : RegIndex} (h : j ≠ i) :
    (s.writeReg i v).readReg j = s.readReg j := by
  unfold State.readReg State.writeReg
  split
  · next hj =>
    split
    · next hi =>
      simp only [isRegister, Bool.and_eq_true, decide_eq_true_eq] at hi hj
      have hne : i.toNat ≠ j.toNat := fun e => h (BitVec.eq_of_toNat_eq e.symm)
      have hj7 : j.toNat - 1 < 7 := by omega
      simp [Vector.getD, hj7, show ¬ i.toNat - 1 = j.toNat - 1 by omega]
    · rfl
  · rfl

/-- Two states hold the same registers when their read ports agree. -/
theorem State.regs_ext {s t : State} (h : ∀ i, s.readReg i = t.readReg i) : s.regs = t.regs := by
  ext1 n hn
  have hn : n < 7 := hn
  have hi : (BitVec.ofNat 4 (n + 1)).toNat = n + 1 := by simp; omega
  have := h (BitVec.ofNat 4 (n + 1))
  simpa [State.readReg, isRegister, hi, Vector.getD, hn, show n + 1 ≤ 7 by omega] using this

/-! ### `writeAluOut` and the ALU instructions' shared form -/

@[simp] theorem State.writeAluOut_pc : (s.writeAluOut out).pc = s.pc := by simp [State.writeAluOut]
@[simp] theorem State.writeAluOut_CF : (s.writeAluOut out).CF = out.2.1 := rfl
@[simp] theorem State.writeAluOut_OF : (s.writeAluOut out).OF = out.2.2 := rfl
@[simp] theorem State.writeAluOut_cache : (s.writeAluOut out).cache = s.cache := by simp [State.writeAluOut]
@[simp] theorem State.writeAluOut_mem : (s.writeAluOut out).mem = s.mem := by simp [State.writeAluOut]
@[simp] theorem State.writeAluOut_dest : (s.writeAluOut out).readReg 7#4 = out.1 :=
  s.readReg_writeReg_same out.1 (i := 7#4) (by decide)

theorem State.writeAluOut_other {i : RegIndex} (h : i ≠ 7#4) : (s.writeAluOut out).readReg i = s.readReg i :=
  s.readReg_writeReg_other out.1 h

end Sys2Proof.Machine
end

