-- ==== Sys2Proof/Laws/Cache.lean ====
section
/-! SUPPORT. What each cache and Memory operation can do, said once (20_memory.md rules R42 to R57). Later
proofs cite these lemmas and do not unfold the operations. -/

namespace Sys2Proof.Machine

/-! ### Write-back and eviction -/

/-- All that an eviction can do: nothing, or put the line's block where it came from. -/
theorem State.evict_cases (size : Nat) (i : LineIndex) (s : State) :
    s.evict size i = s ∨
      ((s.line i).valid = true ∧ (s.line i).dirty = true ∧
        (writeBackBase (s.line i).tag i).toNat + 4 ≤ size ∧
        s.evict size i =
          { s with mem := s.mem.writeBlock (writeBackBase (s.line i).tag i) (s.line i).block }) := by
  unfold State.evict State.writeBack
  split
  · next h =>
    rw [Bool.and_eq_true] at h
    dsimp only
    split
    · next hb => exact .inr ⟨h.1, h.2, hb, rfl⟩
    · exact .inl rfl
  · exact .inl rfl

variable {size : Nat} {s : State} {a b : Addr} {i j : LineIndex} {v : Byte}

@[simp] theorem State.evict_cache : (s.evict size i).cache = s.cache := by
  rcases State.evict_cases size i s with h | ⟨_, _, _, h⟩ <;> rw [h]
@[simp] theorem State.evict_pc : (s.evict size i).pc = s.pc := by
  rcases State.evict_cases size i s with h | ⟨_, _, _, h⟩ <;> rw [h]
@[simp] theorem State.evict_regs : (s.evict size i).regs = s.regs := by
  rcases State.evict_cases size i s with h | ⟨_, _, _, h⟩ <;> rw [h]
@[simp] theorem State.evict_CF : (s.evict size i).CF = s.CF := by
  rcases State.evict_cases size i s with h | ⟨_, _, _, h⟩ <;> rw [h]
@[simp] theorem State.evict_OF : (s.evict size i).OF = s.OF := by
  rcases State.evict_cases size i s with h | ⟨_, _, _, h⟩ <;> rw [h]
@[simp] theorem State.evict_line : (s.evict size i).line j = s.line j := by simp [State.line]
@[simp] theorem State.evict_hit : (s.evict size i).hit a = s.hit a := by simp [State.hit]

theorem State.evict_wf (h : s.mem.wf = true) : (s.evict size i).mem.wf = true := by
  rcases State.evict_cases size i s with e | ⟨_, _, _, e⟩ <;> rw [e]
  · exact h
  · exact Memory.wf_writeBlock h _ _

/-- A line that is not dirty is dropped without a write (rule R45). -/
theorem State.evict_clean (h : (s.line i).dirty = false) : s.evict size i = s := by simp [State.evict, h]

/-- An eviction writes only the block of the line it evicts. -/
theorem State.evict_read_other
    (h : (s.line i).valid = true → (s.line i).dirty = true → alignedBase a ≠ writeBackBase (s.line i).tag i) :
    (s.evict size i).mem.read a = s.mem.read a := by
  rcases State.evict_cases size i s with e | ⟨hv, hd, _, e⟩ <;> rw [e]
  refine Memory.read_writeBlock_other _ _ fun o ho => h hv hd ?_
  rw [ho, writeBackBase, alignedBase_alignedBase_add]

/-- An eviction of a dirty line writes all four bytes of its block. -/
theorem State.evict_read_block (hm : s.mem.wf = true) (hv : (s.line i).valid = true)
    (hd : (s.line i).dirty = true) (o : Offset) :
    (s.evict Config.memSize i).mem.read (writeBackBase (s.line i).tag i + o.setWidth 16)
      = (s.line i).block.byteAt o := by
  have hb := alignedBase_bound (lineAddr (s.line i).tag i)
  simp only [State.evict, State.writeBack, hv, hd, Bool.and_self, if_true, writeBackBase, hb]
  exact Memory.read_writeBlock hm _ _ o

/-! ### Fill, miss and residence -/

@[simp] theorem State.fill_pc : (s.fill size a).pc = s.pc := rfl
@[simp] theorem State.fill_regs : (s.fill size a).regs = s.regs := rfl
@[simp] theorem State.fill_CF : (s.fill size a).CF = s.CF := rfl
@[simp] theorem State.fill_OF : (s.fill size a).OF = s.OF := rfl
@[simp] theorem State.fill_mem : (s.fill size a).mem = s.mem := rfl

@[simp] theorem State.miss_pc : (s.miss size a).pc = s.pc := by simp [State.miss]
@[simp] theorem State.miss_regs : (s.miss size a).regs = s.regs := by simp [State.miss]
@[simp] theorem State.miss_CF : (s.miss size a).CF = s.CF := by simp [State.miss]
@[simp] theorem State.miss_OF : (s.miss size a).OF = s.OF := by simp [State.miss]
@[simp] theorem State.miss_mem : (s.miss size a).mem = (s.evict size (indexOf a)).mem := rfl

/-- The line a miss leaves: the block of `a`, retagged, valid, clean (rule R45). -/
theorem State.miss_line :
    (s.miss size a).line (indexOf a)
      = ⟨tagOf a, fillBlock size (s.evict size (indexOf a)).mem a, true, false⟩ := by
  simp [State.miss, State.fill]

/-- A miss leaves every other line alone. -/
theorem State.miss_line_other (h : i ≠ indexOf a) : (s.miss size a).line i = s.line i := by
  simp [State.miss, State.fill, State.line_setLine_other _ _ h]

@[simp] theorem State.makeResident_pc : (s.makeResident size a).pc = s.pc := by
  unfold State.makeResident; split <;> simp
@[simp] theorem State.makeResident_regs : (s.makeResident size a).regs = s.regs := by
  unfold State.makeResident; split <;> simp
@[simp] theorem State.makeResident_CF : (s.makeResident size a).CF = s.CF := by
  unfold State.makeResident; split <;> simp
@[simp] theorem State.makeResident_OF : (s.makeResident size a).OF = s.OF := by
  unfold State.makeResident; split <;> simp

/-- The address accessed hits afterwards. -/
@[simp] theorem State.makeResident_hit : (s.makeResident size a).hit a = true := by
  unfold State.makeResident
  split
  · assumption
  · simp [State.hit, State.miss_line]

/-- An access to an address that hits changes nothing (rule R46). -/
theorem State.makeResident_of_hit (h : s.hit a = true) : s.makeResident size a = s := by
  simp [State.makeResident, h]

/-- Every line but the accessed one stays. -/
theorem State.makeResident_line_other (h : i ≠ indexOf a) : (s.makeResident size a).line i = s.line i := by
  unfold State.makeResident; split
  · rfl
  · exact State.miss_line_other h

theorem State.makeResident_wf (h : s.mem.wf = true) : (s.makeResident size a).mem.wf = true := by
  unfold State.makeResident; split
  · exact h
  · exact State.evict_wf h

/-- The accessed line is dirty afterwards only if it hit and was dirty. -/
theorem State.makeResident_dirty (h : ((s.makeResident size a).line i).dirty = true) :
    (s.line i).dirty = true := by
  unfold State.makeResident at h
  split at h
  · exact h
  · by_cases hi : i = indexOf a
    · subst hi; simp [State.miss_line] at h
    · rwa [State.miss_line_other hi] at h

theorem State.makeResident_dirtyValid (h : ∀ i, (s.line i).dirty = true → (s.line i).valid = true) :
    ∀ i, ((s.makeResident size a).line i).dirty = true → ((s.makeResident size a).line i).valid = true := by
  intro i hd
  unfold State.makeResident at hd ⊢
  split at hd
  · next hh => simpa [hh] using h i hd
  · next hh =>
    by_cases hi : i = indexOf a
    · subst hi; simp [State.miss_line] at hd
    · rw [State.miss_line_other hi] at hd
      simpa [hh, State.miss_line_other hi] using h i hd

/-- With nothing dirty in the line, an access writes nothing back. -/
theorem State.makeResident_mem_of_clean (h : (s.line (indexOf a)).dirty = false) :
    (s.makeResident size a).mem = s.mem := by
  unfold State.makeResident; split
  · rfl
  · rw [State.miss_mem, State.evict_clean h]

/-- The write-back of a miss on `a` cannot touch a byte whose block has `a`'s tag (rule R45). -/
theorem State.miss_read_sameTag (h : s.hit a = false) (hb : tagOf b = tagOf a) :
    (s.evict size (indexOf a)).mem.read b = s.mem.read b := by
  refine State.evict_read_other fun hv _ e => ?_
  have ht : tagOf b = (s.line (indexOf a)).tag := by
    have h1 := tagOf_alignedBase_add b 0
    have h2 := tagOf_alignedBase_add (lineAddr (s.line (indexOf a)).tag (indexOf a)) 0
    rw [← h1, e, writeBackBase, h2, tagOf_lineAddr]
  simp [State.hit, hv, ← ht, hb] at h

/-- The write-back of a miss on `a` cannot touch a byte of another block of lines: its block lies in `a`'s
group of four lines. -/
theorem State.evict_read_otherGroup (h : (indexOf b).toNat / 4 ≠ i.toNat / 4) :
    (s.evict size i).mem.read b = s.mem.read b := by
  refine State.evict_read_other fun _ _ e => h ?_
  have e' := congrArg BitVec.toNat e
  have := i.isLt
  rw [writeBackBase, alignedBase_toNat, alignedBase_toNat, lineAddr_toNat] at e'
  rw [indexOf_toNat]
  omega

/-- What a read of `a` returns is the view of `a` before it (rule R57). -/
theorem State.makeResident_lineByte : (s.makeResident Config.memSize a).lineByte a = s.view a := by
  unfold State.makeResident State.view
  split
  · rfl
  · next h =>
    rw [State.lineByte, State.miss_line, fillBlock, if_pos (alignedBase_bound a), Memory.readBlock_byteAt,
      alignedBase_add_offsetOf, State.miss_read_sameTag (by simpa using h) rfl]

/-- The view of an address that an access did not touch the line of, when the access's write-back cannot
reach it. -/
theorem State.makeResident_view_other (hi : indexOf b ≠ indexOf a)
    (hg : tagOf b = tagOf a ∨ (indexOf b).toNat / 4 ≠ (indexOf a).toNat / 4) :
    (s.makeResident size a).view b = s.view b := by
  have hl := State.makeResident_line_other (size := size) (s := s) hi
  have hm : (s.makeResident size a).mem.read b = s.mem.read b := by
    unfold State.makeResident
    split
    · rfl
    · next h =>
      rw [State.miss_mem]
      rcases hg with hg | hg
      · exact State.miss_read_sameTag (by simpa using h) hg
      · exact State.evict_read_otherGroup hg
  simp [State.view, State.hit, State.lineByte, hl, hm]

/-! ### Cache writes -/

@[simp] theorem State.storeInLine_pc : (s.storeInLine a v).pc = s.pc := rfl
@[simp] theorem State.storeInLine_regs : (s.storeInLine a v).regs = s.regs := rfl
@[simp] theorem State.storeInLine_CF : (s.storeInLine a v).CF = s.CF := rfl
@[simp] theorem State.storeInLine_OF : (s.storeInLine a v).OF = s.OF := rfl
@[simp] theorem State.storeInLine_mem : (s.storeInLine a v).mem = s.mem := rfl

theorem State.storeInLine_line :
    (s.storeInLine a v).line (indexOf a)
      = { s.line (indexOf a) with
          block := (s.line (indexOf a)).block.withByte (offsetOf a) v
          dirty := true } := by
  simp [State.storeInLine]

theorem State.storeInLine_line_other (h : i ≠ indexOf a) : (s.storeInLine a v).line i = s.line i :=
  State.line_setLine_other _ _ h

theorem Block.byteAt_withByte_same (b : Block) (o : Offset) (v : Byte) : (b.withByte o v).byteAt o = v := by
  simp [Block.byteAt, Block.withByte]

theorem Block.byteAt_withByte_other (b : Block) {o p : Offset} (v : Byte) (h : p ≠ o) :
    (b.withByte o v).byteAt p = b.byteAt p := by
  have : o.toNat ≠ p.toNat := fun e => h (BitVec.eq_of_toNat_eq e.symm)
  simp [Block.byteAt, Block.withByte, this]

@[simp] theorem State.storeInLine_hit : (s.storeInLine a v).hit a = s.hit a := by
  simp [State.hit, State.storeInLine_line]

@[simp] theorem State.storeInLine_lineByte : (s.storeInLine a v).lineByte a = v := by
  simp [State.lineByte, State.storeInLine_line, Block.byteAt_withByte_same]

/-- After a cache write to `a` the line holds `v` for it (rules R47, R51). -/
theorem State.cacheWrite_view : (s.cacheWrite size a v).view a = v := by
  simp [State.view, State.cacheWrite]

/-! ### The Memory ports on the addresses there are -/

/-- A read through Memory below the size is the cache's (rule R52). -/
theorem State.memRead_of_lt {a : Nat} (h : a < size) :
    s.memRead size a
      = ((s.makeResident size (BitVec.ofNat 16 a)).lineByte (BitVec.ofNat 16 a),
          s.makeResident size (BitVec.ofNat 16 a)) := by
  simp [State.memRead, State.cacheRead, Nat.not_le.mpr h]

/-- A write through Memory below the size is the cache's (rule R53). -/
theorem State.memWrite_of_lt {a : Nat} (h : a < size) :
    s.memWrite size a v = s.cacheWrite size (BitVec.ofNat 16 a) v := by
  simp [State.memWrite, Nat.not_le.mpr h]

end Sys2Proof.Machine
end

