-- ==== Sys2Proof/Laws/Encoding.lean ====
section
/-! SUPPORT. The fields of an instruction word and the formats' words, on numbers (30_encoding.md rules R91,
R92). -/

namespace Sys2Proof

variable (w : Word)

theorem opField_toNat : (opField w).toNat = w.toNat / 4096 := by
  simp [opField, Nat.shiftRight_eq_div_pow]; omega
theorem faField_toNat : (faField w).toNat = w.toNat / 256 % 16 := by
  simp [faField, Nat.shiftRight_eq_div_pow]
theorem fbField_toNat : (fbField w).toNat = w.toNat / 16 % 16 := by
  simp [fbField, Nat.shiftRight_eq_div_pow]
theorem fmtField_toNat : (fmtField w).toNat = w.toNat % 16 := by simp [fmtField]
theorem fdField_toNat : (fdField w).toNat = w.toNat / 256 % 16 := by
  simp [fdField, Nat.shiftRight_eq_div_pow]
theorem imm8Field_toNat : (imm8Field w).toNat = w.toNat % 256 := by simp [imm8Field]
theorem ignoredField_toNat : (ignoredField w).toNat = w.toNat % 4096 := by simp [ignoredField]

/-- The number of two bit strings put side by side. -/
theorem append_toNat {m n : Nat} (x : BitVec m) (y : BitVec n) :
    (x ++ y).toNat = x.toNat * 2 ^ n + y.toNat := by
  rw [BitVec.toNat_append, ← Nat.shiftLeft_add_eq_or_of_lt y.isLt, Nat.shiftLeft_eq]

theorem formatR_toNat (op fa fb fmt : BitVec 4) :
    BitVec.toNat (w := 16) (op ++ fa ++ fb ++ fmt)
      = op.toNat * 4096 + fa.toNat * 256 + fb.toNat * 16 + fmt.toNat := by
  show (op ++ fa ++ fb ++ fmt : BitVec (4 + 4 + 4 + 4)).toNat = _
  rw [append_toNat, append_toNat, append_toNat]; omega

theorem formatM_toNat (op fd : BitVec 4) (imm8 : Byte) :
    BitVec.toNat (w := 16) (op ++ fd ++ imm8) = op.toNat * 4096 + fd.toNat * 256 + imm8.toNat := by
  show (op ++ fd ++ imm8 : BitVec (4 + 4 + 8)).toNat = _
  rw [append_toNat, append_toNat]; omega

theorem formatX_toNat (op : BitVec 4) (ignored : BitVec 12) :
    BitVec.toNat (w := 16) (op ++ ignored) = op.toNat * 4096 + ignored.toNat := by
  show (op ++ ignored : BitVec (4 + 12)).toNat = _
  rw [append_toNat]; omega

/-- A mask and a pattern that fix nothing of the low byte match by the high byte alone, as every row of the opcode
table but the zero word's does. -/
theorem mask_highByte (m p : Word) (hm : m.extractLsb' 0 8 = 0#8) (hp : p.extractLsb' 0 8 = 0#8) :
    (w &&& m == p) = (w.extractLsb' 8 8 &&& m.extractLsb' 8 8 == p.extractLsb' 8 8) := by
  rw [Bool.eq_iff_iff, beq_iff_eq, beq_iff_eq]
  constructor
  · rintro rfl; ext i hi; simp
  · intro e
    apply BitVec.eq_of_getLsbD_eq
    intro i hi
    by_cases h8 : i < 8
    · have hmi := congrArg (fun x => x.getLsbD i) hm
      have hpi := congrArg (fun x => x.getLsbD i) hp
      simp [h8] at hmi hpi
      simp [hmi, hpi]
    · have ei := congrArg (fun x => x.getLsbD (i - 8)) e
      simp [show i - 8 < 8 by omega, show 8 + (i - 8) = i by omega] at ei
      simp [ei]

/-- The fields of a format R word are the ones it was made of. -/
theorem fields_formatR (op fa fb fmt : BitVec 4) :
    opField (op ++ fa ++ fb ++ fmt) = op ∧ faField (op ++ fa ++ fb ++ fmt) = fa ∧
      fbField (op ++ fa ++ fb ++ fmt) = fb ∧ fmtField (op ++ fa ++ fb ++ fmt) = fmt := by
  have := op.isLt; have := fa.isLt; have := fb.isLt; have := fmt.isLt
  refine ⟨?_, ?_, ?_, ?_⟩ <;> apply BitVec.eq_of_toNat_eq <;>
    simp only [opField_toNat, faField_toNat, fbField_toNat, fmtField_toNat, formatR_toNat] <;> omega

/-- The fields of a format M word are the ones it was made of. -/
theorem fields_formatM (op fd : BitVec 4) (imm8 : Byte) :
    opField (op ++ fd ++ imm8) = op ∧ fdField (op ++ fd ++ imm8) = fd ∧ imm8Field (op ++ fd ++ imm8) = imm8 := by
  have := op.isLt; have := fd.isLt; have := imm8.isLt
  refine ⟨?_, ?_, ?_⟩ <;> apply BitVec.eq_of_toNat_eq <;>
    simp only [opField_toNat, fdField_toNat, imm8Field_toNat, formatM_toNat] <;> omega

/-- The fields of a format X word are the ones it was made of. -/
theorem fields_formatX (op : BitVec 4) (ignored : BitVec 12) :
    opField (op ++ ignored) = op ∧ ignoredField (op ++ ignored) = ignored := by
  have := op.isLt; have := ignored.isLt
  refine ⟨?_, ?_⟩ <;> apply BitVec.eq_of_toNat_eq <;>
    simp only [opField_toNat, ignoredField_toNat, formatX_toNat] <;> omega

end Sys2Proof
end

