-- ==== Sys2Proof/Laws/PerInstr.lean ====
section
/-! SUPPORT. Statements for every instruction, one lemma for each constructor of `Instr`. Family RoundTrip:
the encoder's word of a well-formed instruction decodes to it. -/

namespace Sys2Proof.Laws.RoundTrip

/-- Decoding the word of a well-formed instruction gives the instruction. -/
def Statement (i : Instr) : Prop := i.wf = true → decodeWord (encode i) = i

theorem halt0 : Statement .halt0 := fun _ => rfl

theorem add (fa fb : RegIndex) (fmt : BitVec 4) : Statement (.add fa fb fmt) := by
  intro hwf
  obtain ⟨ho, ha, hb, hf⟩ := fields_formatR 0#4 fa fb fmt
  have hne : (0#4 ++ fa ++ fb ++ fmt : Word) ≠ 0x0000#16 := by
    intro h
    rw [h] at ha hb hf
    simp [← ha, ← hb, ← hf, Instr.wf, faField, fbField, fmtField] at hwf
  simp [encode, decodeWord, hne, ho, ha, hb, hf]

/-- A word with a non-zero opcode field is not the zero word. -/
theorem ne_zero_of_opField {w : Word} {op : BitVec 4} (h : opField w = op) (hop : op ≠ 0#4) :
    w ≠ 0x0000#16 := by
  rintro rfl; exact hop (h ▸ by decide)

theorem sub (fa fb : RegIndex) (fmt : BitVec 4) : Statement (.sub fa fb fmt) := by
  intro _
  obtain ⟨ho, ha, hb, hf⟩ := fields_formatR 1#4 fa fb fmt
  simp [encode, decodeWord, ne_zero_of_opField ho (by decide), ho, ha, hb, hf]

theorem mul (fa fb : RegIndex) (fmt : BitVec 4) : Statement (.mul fa fb fmt) := by
  intro _
  obtain ⟨ho, ha, hb, hf⟩ := fields_formatR 2#4 fa fb fmt
  simp [encode, decodeWord, ne_zero_of_opField ho (by decide), ho, ha, hb, hf]

theorem div (fa fb : RegIndex) (fmt : BitVec 4) : Statement (.div fa fb fmt) := by
  intro _
  obtain ⟨ho, ha, hb, hf⟩ := fields_formatR 3#4 fa fb fmt
  simp [encode, decodeWord, ne_zero_of_opField ho (by decide), ho, ha, hb, hf]

theorem movm (fd : BitVec 4) (imm8 : Byte) : Statement (.movm fd imm8) := by
  intro hwf
  obtain ⟨ho, hd, hi⟩ := fields_formatM 4#4 fd imm8
  have hsel : movSelectsRegister fd = false := by
    revert hwf; simp only [Instr.wf]; clear ho hd hi; revert fd; decide
  simp [encode, decodeWord, ne_zero_of_opField ho (by decide), ho, hd, hi, hsel]

theorem movi (fd : RegIndex) (imm8 : Byte) : Statement (.movi fd imm8) := by
  intro hwf
  obtain ⟨ho, hd, hi⟩ := fields_formatM 4#4 fd imm8
  have hsel : movSelectsRegister fd = true := hwf
  simp [encode, decodeWord, ne_zero_of_opField ho (by decide), ho, hd, hi, hsel]

theorem skip (op : BitVec 4) (ignored : BitVec 12) : Statement (.skip op ignored) := by
  intro hwf
  obtain ⟨ho, hx⟩ := fields_formatX op ignored
  have hop : op ≠ 0 ∧ op ≠ 1 ∧ op ≠ 2 ∧ op ≠ 3 ∧ op ≠ 4 := by
    revert hwf; simp only [Instr.wf]; clear ho hx; revert op; decide
  obtain ⟨h0, h1, h2, h3, h4⟩ := hop
  simp only [encode, decodeWord, ne_zero_of_opField ho h0, if_false, ho, hx, h0, h1, h2, h3, h4]

end Sys2Proof.Laws.RoundTrip
end

