-- ==== Sys2Proof/Laws/Step.lean ====
section
/-! SUPPORT. What one instruction and one step can do, said once: the inversion lemma of `exec`, and the fetch. -/

namespace Sys2Proof.Machine

/-! ### `exec` -/

/-- All that an instruction can do. Every instruction answers a next state; none touches the cache; only HALT0
leaves `pc`; MOVM alone writes the backing store; the ALU instructions write `x[7]` and the flags through one
ALU result, MOVI writes one register, and nothing else does either. -/
theorem exec_cases (i : Instr) (s : State) :
    ∃ t, exec i s = .next t ∧ t.cache = s.cache ∧
      ((i = .halt0 ∧ t = s) ∨
       (∃ op ignored, i = .skip op ignored ∧ t = s.advancePc) ∨
       (∃ fd imm8, i = .movi fd imm8 ∧ t = (s.writeReg fd imm8).advancePc) ∨
       (∃ fd imm8, i = .movm fd imm8 ∧ t = (s.backingWrite (movmAddr fd) imm8).advancePc) ∨
       (∃ fa fb fmt, i = .add fa fb fmt ∧
          t = (s.writeAluOut (aluAdd (s.readReg fa) (s.readReg fb))).advancePc) ∨
       (∃ fa fb fmt, i = .sub fa fb fmt ∧
          t = (s.writeAluOut (aluSub (s.readReg fa) (s.readReg fb))).advancePc) ∨
       (∃ fa fb fmt, i = .mul fa fb fmt ∧
          t = (s.writeAluOut (aluMul (s.readReg fa) (s.readReg fb) s.CF)).advancePc) ∨
       (∃ fa fb fmt, i = .div fa fb fmt ∧
          t = (s.writeAluOut (aluDiv (s.readReg fa) (s.readReg fb) s.CF)).advancePc)) := by
  cases i <;> refine ⟨_, rfl, ?_, ?_⟩ <;> simp [aluInstr]

variable {i : Instr} {s t : State}

theorem exec_next (i : Instr) (s : State) : ∃ t, exec i s = .next t :=
  let ⟨t, h, _⟩ := exec_cases i s
  ⟨t, h⟩

/-- No instruction touches the cache after its fetch. -/
theorem exec_cache (h : exec i s = .next t) : t.cache = s.cache := by
  obtain ⟨u, hu, hc, _⟩ := exec_cases i s
  rw [hu] at h; cases h; exact hc

/-- Every instruction but the zero word advances `pc` by 2. -/
theorem exec_pc (h : exec i s = .next t) : t.pc = if i = .halt0 then s.pc else s.pc + 2#17 := by
  obtain ⟨u, hu, _, hcases⟩ := exec_cases i s
  rw [hu] at h; cases h
  rcases hcases with ⟨rfl, rfl⟩ | ⟨_, _, rfl, rfl⟩ | ⟨_, _, rfl, rfl⟩ | ⟨_, _, rfl, rfl⟩ | ⟨_, _, _, rfl, rfl⟩ |
    ⟨_, _, _, rfl, rfl⟩ | ⟨_, _, _, rfl, rfl⟩ | ⟨_, _, _, rfl, rfl⟩ <;> simp

/-- MOVM alone writes the backing store. -/
theorem exec_mem (h : exec i s = .next t) :
    t.mem = s.mem ∨ ∃ fd imm8, i = .movm fd imm8 ∧ t.mem = s.mem.write (movmAddr fd) imm8 := by
  obtain ⟨u, hu, _, hcases⟩ := exec_cases i s
  rw [hu] at h; cases h
  rcases hcases with ⟨rfl, rfl⟩ | ⟨_, _, rfl, rfl⟩ | ⟨_, _, rfl, rfl⟩ | ⟨_, _, rfl, rfl⟩ | ⟨_, _, _, rfl, rfl⟩ |
    ⟨_, _, _, rfl, rfl⟩ | ⟨_, _, _, rfl, rfl⟩ | ⟨_, _, _, rfl, rfl⟩ <;> simp

/-- An instruction keeps memory's canonical form. -/
theorem exec_wf (h : exec i s = .next t) (hm : s.mem.wf = true) : t.mem.wf = true := by
  rcases exec_mem h with e | ⟨_, _, _, e⟩ <;> rw [e]
  · exact hm
  · exact Memory.wf_write hm _ _

/-! ### Fetch -/

/-- A terminal state fetches the zero word and nothing happens (rules R140, R141). -/
theorem fetch_terminal (h : s.terminal = true) : fetch s = (0x0000#16, s) := by simp [fetch, h]

theorem State.not_terminal_iff : s.terminal = false ↔ s.pc.toNat < 65535 := by
  rw [State.terminal, decide_eq_false_iff_not, Config.memSize]; omega

/-- The address of the instruction's first byte, and the one after it. -/
theorem State.pc_addr (s : State) :
    BitVec.ofNat 16 s.pc.toNat = s.pc.setWidth 16 ∧
      BitVec.ofNat 16 (s.pc.toNat + 1) = s.pc.setWidth 16 + 1#16 := by
  constructor <;> apply BitVec.eq_of_toNat_eq <;> simp

theorem indexOf_succ_ne (a : Addr) : indexOf (a + 1#16) ≠ indexOf a := by
  intro h
  have h := congrArg BitVec.toNat h
  have := a.isLt
  rw [indexOf_toNat, indexOf_toNat, BitVec.toNat_add] at h
  simp at h
  omega

/-- An address and the next one lie in one block or in different groups of lines. -/
theorem succ_sameTag_or_otherGroup (a : Addr) (h : a.toNat < 65535) :
    tagOf (a + 1#16) = tagOf a ∨ (indexOf (a + 1#16)).toNat / 4 ≠ (indexOf a).toNat / 4 := by
  have e : (a + 1#16).toNat = a.toNat + 1 := by rw [BitVec.toNat_add]; simp; omega
  by_cases hg : a.toNat % 64 = 63
  · right; rw [indexOf_toNat, indexOf_toNat, e]; omega
  · left; apply BitVec.eq_of_toNat_eq; rw [tagOf_toNat, tagOf_toNat, e]; omega

/-- Outside a terminal state the fetch returns the views of the two bytes, high byte first, and makes both
addresses resident in turn (rule R140). -/
theorem fetch_running (h : s.terminal = false) :
    fetch s = (s.view (s.pc.setWidth 16) ++ s.view (s.pc.setWidth 16 + 1#16),
      (s.makeResident Config.memSize (s.pc.setWidth 16)).makeResident Config.memSize
        (s.pc.setWidth 16 + 1#16)) := by
  have hpc := State.not_terminal_iff.mp h
  obtain ⟨e0, e1⟩ := State.pc_addr s
  have hn : (s.pc.setWidth 16).toNat < 65535 := by simp; omega
  rw [fetch, if_neg (by simp [h]), State.memRead_of_lt (by rw [Config.memSize]; omega), e0]
  dsimp only
  rw [State.memRead_of_lt (by rw [Config.memSize]; omega), e1, State.makeResident_lineByte,
    State.makeResident_lineByte,
    State.makeResident_view_other (indexOf_succ_ne _) (succ_sameTag_or_otherGroup _ hn)]

/-- The state after a fetch: the same state, or two accesses made in turn. -/
theorem fetch_state (s : State) :
    (s.terminal = true ∧ (fetch s).2 = s) ∨
      (s.terminal = false ∧
        (fetch s).2 = (s.makeResident Config.memSize (s.pc.setWidth 16)).makeResident Config.memSize
          (s.pc.setWidth 16 + 1#16)) := by
  cases h : s.terminal
  · exact .inr ⟨rfl, by rw [fetch_running h]⟩
  · exact .inl ⟨rfl, by rw [fetch_terminal h]⟩

@[simp] theorem fetch_pc (s : State) : (fetch s).2.pc = s.pc := by
  rcases fetch_state s with ⟨_, h⟩ | ⟨_, h⟩ <;> simp [h]
@[simp] theorem fetch_regs (s : State) : (fetch s).2.regs = s.regs := by
  rcases fetch_state s with ⟨_, h⟩ | ⟨_, h⟩ <;> simp [h]
@[simp] theorem fetch_CF (s : State) : (fetch s).2.CF = s.CF := by
  rcases fetch_state s with ⟨_, h⟩ | ⟨_, h⟩ <;> simp [h]
@[simp] theorem fetch_OF (s : State) : (fetch s).2.OF = s.OF := by
  rcases fetch_state s with ⟨_, h⟩ | ⟨_, h⟩ <;> simp [h]
@[simp] theorem fetch_readReg (s : State) (i : RegIndex) : (fetch s).2.readReg i = s.readReg i := by
  simp [State.readReg]

/-- A fetch keeps memory's canonical form. -/
theorem fetch_wf (h : s.mem.wf = true) : (fetch s).2.mem.wf = true := by
  rcases fetch_state s with ⟨_, e⟩ | ⟨_, e⟩ <;> rw [e]
  · exact h
  · exact State.makeResident_wf (State.makeResident_wf h)

/-- A line that is dirty after a fetch was dirty before it. -/
theorem fetch_dirty {k : LineIndex} (h : ((fetch s).2.line k).dirty = true) : (s.line k).dirty = true := by
  rcases fetch_state s with ⟨_, e⟩ | ⟨_, e⟩ <;> rw [e] at h
  · exact h
  · exact State.makeResident_dirty (State.makeResident_dirty h)

/-- A fetch keeps `dirty` implies `valid`. -/
theorem fetch_dirtyValid (h : ∀ k, (s.line k).dirty = true → (s.line k).valid = true) :
    ∀ k, ((fetch s).2.line k).dirty = true → ((fetch s).2.line k).valid = true := by
  rcases fetch_state s with ⟨_, e⟩ | ⟨_, e⟩ <;> rw [e]
  · exact h
  · exact State.makeResident_dirtyValid (State.makeResident_dirtyValid h)

/-- With no dirty line a fetch writes nothing back. -/
theorem fetch_mem_of_noDirty (h : s.NoDirty) : (fetch s).2.mem = s.mem := by
  rcases fetch_state s with ⟨_, e⟩ | ⟨_, e⟩ <;> rw [e]
  have h1 : ((s.makeResident Config.memSize (s.pc.setWidth 16)).line
      (indexOf (s.pc.setWidth 16 + 1#16))).dirty = false := by
    rw [State.makeResident_line_other (indexOf_succ_ne _)]; exact h _
  rw [State.makeResident_mem_of_clean h1, State.makeResident_mem_of_clean (h _)]

/-- A fetch in a state where both bytes hit changes nothing. -/
theorem fetch_of_hit (h0 : s.hit (s.pc.setWidth 16) = true) (h1 : s.hit (s.pc.setWidth 16 + 1#16) = true) :
    (fetch s).2 = s := by
  rcases fetch_state s with ⟨_, e⟩ | ⟨_, e⟩ <;> rw [e]
  rw [State.makeResident_of_hit h0, State.makeResident_of_hit h1]

/-- After a fetch both bytes hit. -/
theorem fetch_hits (h : s.terminal = false) :
    (fetch s).2.hit (s.pc.setWidth 16) = true ∧ (fetch s).2.hit (s.pc.setWidth 16 + 1#16) = true := by
  rw [fetch_running h]
  refine ⟨?_, by simp⟩
  have hne := indexOf_succ_ne (s.pc.setWidth 16)
  have := State.makeResident_hit (size := Config.memSize) (s := s) (a := s.pc.setWidth 16)
  simpa [State.hit, State.makeResident_line_other hne.symm] using this

/-! ### Placing a word where the next step fetches (log entry 3) -/

@[simp] theorem State.pokeView_pc (s : State) (a : Addr) (v : Byte) : (s.pokeView a v).pc = s.pc := by
  unfold State.pokeView; split <;> rfl

/-- Placing a byte keeps memory's canonical form. -/
theorem State.pokeView_wf (h : s.mem.wf = true) (a : Addr) (v : Byte) : (s.pokeView a v).mem.wf = true := by
  unfold State.pokeView; split
  · exact h
  · exact Memory.wf_write h _ _

/-- The byte placed is the one a fetch of its address returns. -/
theorem State.pokeView_view_same (h : s.mem.wf = true) (a : Addr) (v : Byte) : (s.pokeView a v).view a = v := by
  unfold State.pokeView
  split
  · next hh =>
    simp only [State.hit] at hh
    simp only [State.view, State.hit, State.lineByte, State.line_setLine_same, if_pos hh,
      Block.byteAt_withByte_same]
  · next hh =>
    have e : State.hit { s with mem := s.mem.write a v } a = s.hit a := rfl
    rw [State.view, e, if_neg hh]
    exact Memory.read_write_same h _ _

/-- Placing a byte leaves the view of an address of another line. -/
theorem State.pokeView_view_other (s : State) {a b : Addr} (v : Byte) (h : indexOf b ≠ indexOf a) :
    (s.pokeView a v).view b = s.view b := by
  have hne : b ≠ a := fun e => h (by rw [e])
  unfold State.pokeView
  split
  · simp only [State.view, State.hit, State.lineByte, State.line_setLine_other _ _ h, State.setLine_mem]; rfl
  · have e : State.hit { s with mem := s.mem.write a v } b = s.hit b := rfl
    have e' : State.lineByte { s with mem := s.mem.write a v } b = s.lineByte b := rfl
    rw [State.view, e, e', State.view]
    simp only [Memory.read_write_other _ _ hne]

/-! ### Step -/

/-- All that a step does: fetch, then the instruction the word decodes to, which always completes. -/
theorem step_next (s : State) : ∃ t, step s = .next t := exec_next _ _

/-- Only the zero word decodes to HALT0. -/
theorem decodeWord_eq_halt0 {w : Word} : decodeWord w = .halt0 ↔ w = 0x0000#16 := by
  unfold decodeWord
  constructor
  · intro h; by_contra hw; rw [if_neg hw] at h
    split at h <;> try contradiction
    split at h <;> try contradiction
    split at h <;> try contradiction
    split at h <;> try contradiction
    split at h
    · split at h <;> contradiction
    · contradiction
  · rintro rfl; rfl

/-- Where `pc` stands after a step. -/
theorem step_pc (h : step s = .next t) :
    t.pc = if (fetch s).1 = 0x0000#16 then s.pc else s.pc + 2#17 := by
  have := exec_pc h
  simpa [decodeWord_eq_halt0] using this

/-- A line that is dirty after a step was dirty before it: no instruction makes a line dirty (rule R188). -/
theorem step_dirty (h : step s = .next t) {k : LineIndex} (hd : (t.line k).dirty = true) :
    (s.line k).dirty = true := by
  refine fetch_dirty ?_
  simpa [State.line, exec_cache h] using hd

end Sys2Proof.Machine
end

