-- ==== Sys2Proof/Laws/Ports.lean ====
section
/-! SUPPORT. What the flush, the program load, `run` and the host's operations can do, said once
(20_memory.md rule R48, 42_cycle.md rule R147, 70_reset_and_hazards.md). -/

namespace Sys2Proof.Machine

variable {size n : Nat} {s t : State} {i : LineIndex} {v : Byte}

/-! ### Flush -/

@[simp] theorem State.drain_cache : (s.drain size n).cache = s.cache := by
  induction n with
  | zero => rfl
  | succ n ih => simp [State.drain, ih]
@[simp] theorem State.drain_pc : (s.drain size n).pc = s.pc := by
  induction n with
  | zero => rfl
  | succ n ih => simp [State.drain, ih]
@[simp] theorem State.drain_regs : (s.drain size n).regs = s.regs := by
  induction n with
  | zero => rfl
  | succ n ih => simp [State.drain, ih]
@[simp] theorem State.drain_CF : (s.drain size n).CF = s.CF := by
  induction n with
  | zero => rfl
  | succ n ih => simp [State.drain, ih]
@[simp] theorem State.drain_OF : (s.drain size n).OF = s.OF := by
  induction n with
  | zero => rfl
  | succ n ih => simp [State.drain, ih]
@[simp] theorem State.drain_line : (s.drain size n).line i = s.line i := by simp [State.line]

theorem State.drain_wf (h : s.mem.wf = true) : (s.drain size n).mem.wf = true := by
  induction n with
  | zero => exact h
  | succ n ih => exact State.evict_wf ih

/-- Draining lines that are all clean changes nothing. -/
theorem State.drain_clean (h : s.NoDirty) : s.drain size n = s := by
  induction n with
  | zero => rfl
  | succ n ih => rw [State.drain, ih, State.evict_clean (h _)]

@[simp] theorem State.cacheFlush_pc : (s.cacheFlush size).pc = s.pc := by simp [State.cacheFlush]
@[simp] theorem State.cacheFlush_regs : (s.cacheFlush size).regs = s.regs := by simp [State.cacheFlush]
@[simp] theorem State.cacheFlush_CF : (s.cacheFlush size).CF = s.CF := by simp [State.cacheFlush]
@[simp] theorem State.cacheFlush_OF : (s.cacheFlush size).OF = s.OF := by simp [State.cacheFlush]
@[simp] theorem State.cacheFlush_mem : (s.cacheFlush size).mem = (s.drain size 64).mem := by
  simp [State.cacheFlush]

/-- A flush leaves every line invalid and clean, its tag and block as they were. -/
@[simp] theorem State.cacheFlush_line :
    (s.cacheFlush size).line i = { s.line i with valid := false, dirty := false } := by
  simp [State.cacheFlush, State.line]

/-! ### Memory's ports on the state -/

@[simp] theorem State.cacheWrite_pc {a : Addr} : (s.cacheWrite size a v).pc = s.pc := by simp [State.cacheWrite]
@[simp] theorem State.cacheWrite_regs {a : Addr} : (s.cacheWrite size a v).regs = s.regs := by
  simp [State.cacheWrite]
@[simp] theorem State.cacheWrite_CF {a : Addr} : (s.cacheWrite size a v).CF = s.CF := by simp [State.cacheWrite]
@[simp] theorem State.cacheWrite_OF {a : Addr} : (s.cacheWrite size a v).OF = s.OF := by simp [State.cacheWrite]

/-- All that a write through Memory can do: nothing, or a cache write. -/
theorem State.memWrite_cases (size a : Nat) (v : Byte) (s : State) :
    s.memWrite size a v = s ∨ s.memWrite size a v = s.cacheWrite size (BitVec.ofNat 16 a) v := by
  unfold State.memWrite; split
  · exact .inl rfl
  · exact .inr rfl

/-- All that a read through Memory can do to the state: nothing, or make the address resident. -/
theorem State.memRead_cases (size a : Nat) (s : State) :
    (s.memRead size a).2 = s ∨ (s.memRead size a).2 = s.makeResident size (BitVec.ofNat 16 a) := by
  unfold State.memRead; split
  · exact .inl rfl
  · exact .inr rfl

/-! ### What the ports leave alone -/

@[simp] theorem State.memRead_pc {a : Nat} : (s.memRead size a).2.pc = s.pc := by
  rcases State.memRead_cases size a s with h | h <;> simp [h]
@[simp] theorem State.memRead_regs {a : Nat} : (s.memRead size a).2.regs = s.regs := by
  rcases State.memRead_cases size a s with h | h <;> simp [h]
@[simp] theorem State.memRead_CF {a : Nat} : (s.memRead size a).2.CF = s.CF := by
  rcases State.memRead_cases size a s with h | h <;> simp [h]
@[simp] theorem State.memRead_OF {a : Nat} : (s.memRead size a).2.OF = s.OF := by
  rcases State.memRead_cases size a s with h | h <;> simp [h]
@[simp] theorem State.memWrite_pc {a : Nat} : (s.memWrite size a v).pc = s.pc := by
  rcases State.memWrite_cases size a v s with h | h <;> simp [h]
@[simp] theorem State.memWrite_regs {a : Nat} : (s.memWrite size a v).regs = s.regs := by
  rcases State.memWrite_cases size a v s with h | h <;> simp [h]
@[simp] theorem State.memWrite_CF {a : Nat} : (s.memWrite size a v).CF = s.CF := by
  rcases State.memWrite_cases size a v s with h | h <;> simp [h]
@[simp] theorem State.memWrite_OF {a : Nat} : (s.memWrite size a v).OF = s.OF := by
  rcases State.memWrite_cases size a v s with h | h <;> simp [h]

/-! ### Reset -/

/-- `init` leaves one and the same state (rule R181). -/
@[simp] theorem State.hostInit_eq : s.hostInit = State.reset := rfl

/-- After `reset` every register reads zero (rule R182). -/
@[simp] theorem State.hostReset_readReg (s : State) (i : RegIndex) : s.hostReset.readReg i = 0x00#8 := by
  have : ∀ i : RegIndex, State.reset.readReg i = 0x00#8 := by decide
  exact this i

@[simp] theorem State.hostReset_line : s.hostReset.line i = s.line i := rfl

/-- After `init` every line is zero, invalid and clean (rules R23, R49). -/
@[simp] theorem State.reset_line (i : LineIndex) : State.reset.line i = Line.init := by
  simp [State.line, State.reset]

/-! ### Cache writes and the line invariant -/

theorem State.cacheWrite_dirtyValid {a : Addr} (h : ∀ k, (s.line k).dirty = true → (s.line k).valid = true) :
    ∀ k, ((s.cacheWrite size a v).line k).dirty = true → ((s.cacheWrite size a v).line k).valid = true := by
  intro k hd
  by_cases hk : k = indexOf a
  · have := State.makeResident_hit (size := size) (s := s) (a := a)
    rw [State.hit, Bool.and_eq_true] at this
    subst hk; simp [State.cacheWrite, State.storeInLine_line, this.1]
  · rw [State.cacheWrite, State.storeInLine_line_other hk] at hd ⊢
    exact State.makeResident_dirtyValid h k hd

/-! ### Program load -/

@[simp] theorem State.loadFrom_cache {k : Nat} {l : List Byte} : (s.loadFrom k l).cache = s.cache := by
  induction l generalizing k s with
  | nil => rfl
  | cons b l ih => simp [State.loadFrom, ih]
@[simp] theorem State.loadFrom_pc {k : Nat} {l : List Byte} : (s.loadFrom k l).pc = s.pc := by
  induction l generalizing k s with
  | nil => rfl
  | cons b l ih => simp [State.loadFrom, ih]
@[simp] theorem State.loadFrom_regs {k : Nat} {l : List Byte} : (s.loadFrom k l).regs = s.regs := by
  induction l generalizing k s with
  | nil => rfl
  | cons b l ih => simp [State.loadFrom, ih]
@[simp] theorem State.loadFrom_CF {k : Nat} {l : List Byte} : (s.loadFrom k l).CF = s.CF := by
  induction l generalizing k s with
  | nil => rfl
  | cons b l ih => simp [State.loadFrom, ih]
@[simp] theorem State.loadFrom_OF {k : Nat} {l : List Byte} : (s.loadFrom k l).OF = s.OF := by
  induction l generalizing k s with
  | nil => rfl
  | cons b l ih => simp [State.loadFrom, ih]

theorem State.loadFrom_wf {k : Nat} {l : List Byte} (h : s.mem.wf = true) :
    (s.loadFrom k l).mem.wf = true := by
  induction l generalizing k s with
  | nil => exact h
  | cons b l ih => exact ih (Memory.wf_write h _ _)

/-- What a load leaves at each address: the byte of the buffer, or what was there. -/
theorem State.loadFrom_read {k : Nat} {l : List Byte} (hm : s.mem.wf = true) (hk : k + l.length ≤ 65536)
    (a : Addr) :
    (s.loadFrom k l).mem.read a
      = if k ≤ a.toNat ∧ a.toNat < k + l.length then l.getD (a.toNat - k) 0x00#8 else s.mem.read a := by
  induction l generalizing k s with
  | nil => rw [if_neg (by simp)]; rfl
  | cons b l ih =>
    rw [List.length_cons] at hk
    rw [State.loadFrom, ih (Memory.wf_write hm _ _) (by omega), State.backingWrite_mem, List.length_cons]
    by_cases ha : a = BitVec.ofNat 16 k
    · have hn : a.toNat = k := by rw [ha, BitVec.toNat_ofNat]; omega
      rw [if_neg (by omega), if_pos (by omega), ha, Memory.read_write_same hm, ← ha, hn]
      simp
    · have hn : a.toNat ≠ k := fun e => ha (by rw [← e]; simp)
      rw [Memory.read_write_other _ _ ha]
      by_cases hin : k + 1 ≤ a.toNat ∧ a.toNat < k + 1 + l.length
      · rw [if_pos hin, if_pos (by omega), show a.toNat - k = a.toNat - (k + 1) + 1 by omega]
        simp
      · rw [if_neg hin, if_neg (by omega)]

@[simp] theorem State.loadProgram_cache {l : List Byte} : (s.loadProgram l).2.cache = s.cache := by
  unfold State.loadProgram; split <;> simp
@[simp] theorem State.loadProgram_pc {l : List Byte} : (s.loadProgram l).2.pc = s.pc := by
  unfold State.loadProgram; split <;> simp
@[simp] theorem State.loadProgram_regs {l : List Byte} : (s.loadProgram l).2.regs = s.regs := by
  unfold State.loadProgram; split <;> simp
@[simp] theorem State.loadProgram_CF {l : List Byte} : (s.loadProgram l).2.CF = s.CF := by
  unfold State.loadProgram; split <;> simp
@[simp] theorem State.loadProgram_OF {l : List Byte} : (s.loadProgram l).2.OF = s.OF := by
  unfold State.loadProgram; split <;> simp

/-! ### The register port -/

@[simp] theorem State.regSet_cache {k : Int} : (s.regSet k v).cache = s.cache := by
  unfold State.regSet; split <;> simp
@[simp] theorem State.regSet_mem {k : Int} : (s.regSet k v).mem = s.mem := by
  unfold State.regSet; split <;> simp
@[simp] theorem State.regSet_pc {k : Int} : (s.regSet k v).pc = s.pc := by
  unfold State.regSet; split <;> simp
@[simp] theorem State.regSet_CF {k : Int} : (s.regSet k v).CF = s.CF := by
  unfold State.regSet; split <;> simp
@[simp] theorem State.regSet_OF {k : Int} : (s.regSet k v).OF = s.OF := by
  unfold State.regSet; split <;> simp

/-! ### Run -/

theorem run_terminal (h : s.terminal = true) : run n s = .next s := by cases n <;> simp [run, h]

/-- A run of one step more, outside a terminal state. -/
theorem run_succ (h : s.terminal = false) (hs : step s = .next t) : run (n + 1) s = run n t := by
  simp [run, h, hs]

/-- What every step keeps, every run keeps. -/
theorem run_induction {P : State → Prop} (hstep : ∀ s t, P s → step s = .next t → P t) (n : Nat) {s : State}
    (hs : P s) : ∃ t, run n s = .next t ∧ P t := by
  induction n generalizing s with
  | zero => exact ⟨s, rfl, hs⟩
  | succ n ih =>
    cases hterm : s.terminal
    · obtain ⟨u, hu⟩ := step_next s
      rw [run_succ hterm hu]
      exact ih (hstep _ _ hs hu)
    · exact ⟨s, run_terminal hterm, hs⟩

theorem run_next (n : Nat) (s : State) : ∃ t, run n s = .next t :=
  let ⟨t, h, _⟩ := run_induction (P := fun _ => True) (fun _ _ _ _ => trivial) n (s := s) trivial
  ⟨t, h⟩

/-! ### The host's operations -/

theorem withNoAnswer_next (t : State) : withNoAnswer (.next t) = .next (t, .nothing) := rfl

/-- Every operation completes (rule R6). -/
theorem hostOp_next (op : HostOp) (s : State) : ∃ t ans, hostOp op s = .next (t, ans) := by
  cases op with
  | step => obtain ⟨t, h⟩ := step_next s; exact ⟨t, .nothing, by simp [hostOp, h, withNoAnswer]⟩
  | run n => obtain ⟨t, h⟩ := run_next n s; exact ⟨t, .nothing, by simp [hostOp, h, withNoAnswer]⟩
  | _ => exact ⟨_, _, rfl⟩

/-- All that an operation can do to the state: the inversion lemma of `hostOp`. -/
theorem hostOp_cases {op : HostOp} {ans : HostAnswer} (h : hostOp op s = .next (t, ans)) :
    (op = .init ∧ t = State.reset) ∨ (op = .reset ∧ t = s.hostReset) ∨
      (∃ l, op = .loadProgram l ∧ t = (s.loadProgram l).2) ∨ (op = .step ∧ step s = .next t) ∨
      (∃ n, op = .run n ∧ run n s = .next t) ∨ (op = .cacheFlush ∧ t = s.cacheFlush Config.memSize) ∨
      (∃ k v, op = .regSet k v ∧ t = s.regSet k v) ∨
      (∃ a, op = .memRead a ∧ t = (s.memRead Config.memSize a).2) ∨
      (∃ a v, op = .memWrite a v ∧ t = s.memWrite Config.memSize a v) ∨
      ((∃ k, op = .regGet k) ∨ op = .regSnapshot ∨ (∃ a n, op = .memSnapshot a n) ∨ op = .cacheSnapshot) ∧
        t = s := by
  cases op with
  | step =>
    obtain ⟨u, hu⟩ := step_next s
    simp only [hostOp, hu, withNoAnswer, Host.Outcome.next.injEq, Prod.mk.injEq] at h
    simp [hu, h.1]
  | run n =>
    obtain ⟨u, hu⟩ := run_next n s
    simp only [hostOp, hu, withNoAnswer, Host.Outcome.next.injEq, Prod.mk.injEq] at h
    simp [hu, h.1]
  | _ =>
    simp only [hostOp, Host.Outcome.next.injEq, Prod.mk.injEq] at h
    simp [← h.1]

/-- What every operation keeps, every sequence of operations keeps. -/
theorem hostRun_induction {P : State → Prop} (hop : ∀ op s t ans, P s → hostOp op s = .next (t, ans) → P t)
    (ops : List HostOp) {s : State} (hs : P s) : ∃ t, hostRun ops s = .next t ∧ P t := by
  induction ops generalizing s with
  | nil => exact ⟨s, rfl, hs⟩
  | cons op ops ih =>
    obtain ⟨t, ans, h⟩ := hostOp_next op s
    simp only [hostRun, h]
    exact ih (hop _ _ _ _ hs h)

end Sys2Proof.Machine
end

