-- ==== Sys2Proof/Tests/Slice0.lean ====
section
/-! SUPPORT. The model's own tests: ill-formed terms the check refuses, words written out from the spec's
encodings, the spec's vectors (95_test_vectors.md, cited at each), the words of the opcode table run as the first
instruction after reset, and a witness for the hypotheses of every statement that has some. -/

namespace Sys2Proof.Tests

open Sys2Proof Sys2Proof.Machine

/-! ### Helpers -/

/-- The state of an outcome that is a next state. -/
def after : Host.Outcome State Fault Refusal → Option State
  | .next t => some t
  | .fault _ => none
  | .refused _ => none

/-- The state after reset with `x[1]`, `x[2]`, `x[7]` and the flags set. -/
def withRegs (x1 x2 x7 : Byte) (CF OF : Bool) : State :=
  { State.reset with regs := #v[x1, x2, 0, 0, 0, 0, x7], CF := CF, OF := OF }

/-- `pc`, `x[1]`, `x[7]`, `CF`, `OF` after one step that runs the word. -/
def seen (w : Nat) (s : State) : Option (Nat × Byte × Byte × Bool × Bool) :=
  (after (step (s.withFetchWord 16 w))).map fun t => (t.pc.toNat, t.readReg 1, t.readReg 7, t.CF, t.OF)

/-- The state after a host write and its value before a later operation (vectors V-C4, V-C7). -/
def wrote (a : Nat) (v : Byte) (s : State) : State := s.memWrite Config.memSize a v

/-- Four bytes of the backing store, raw. -/
def raw4 (a : Nat) (s : State) : List Byte := s.memSnapshot a 4

/-! ### WellFormed: one ill-formed term for each check -/

theorem test_wf_refuses_add_zero_word : Instr.wf (.add 0 0 0) = false := by decide
theorem test_wf_refuses_movm_register : Instr.wf (.movm 1 0) = false ∧ Instr.wf (.movm 7 0) = false := by decide
theorem test_wf_refuses_movi_address : Instr.wf (.movi 0 0) = false ∧ Instr.wf (.movi 8 0) = false := by decide
theorem test_wf_refuses_skip_opcode : Instr.wf (.skip 4 0) = false := by decide

/-! ### Decode: words written out bit by bit (formats of rule R91; V-E1 to V-E17) -/

theorem test_decode_halt0 : decodeWord 0b0000000000000000#16 = .halt0 := by decide
theorem test_decode_add : decodeWord 0b0000000100100011#16 = .add 1 2 3 := by decide
theorem test_decode_add_fmt_only : decodeWord 0b0000000000000001#16 = .add 0 0 1 := by decide
theorem test_decode_sub : decodeWord 0b0001000000000011#16 = .sub 0 0 3 := by decide
theorem test_decode_mul : decodeWord 0b0010011101100011#16 = .mul 7 6 3 := by decide
theorem test_decode_div : decodeWord 0b0011000100100000#16 = .div 1 2 0 := by decide
theorem test_decode_movi : decodeWord 0b0100000111001000#16 = .movi 1 0xC8 := by decide
theorem test_decode_movm_zero : decodeWord 0b0100000010101011#16 = .movm 0 0xAB := by decide
theorem test_decode_movm_high : decodeWord 0b0100110001110111#16 = .movm 12 0x77 := by decide
theorem test_decode_skip : decodeWord 0b0101101010111100#16 = .skip 5 0xABC := by decide
theorem test_decode_bytes_high_first : decodeBytes [0x01#8, 0x23#8, 0xFF#8] = .ok (.add 1 2 3, [0xFF#8]) := rfl
theorem test_decode_truncated : decodeBytes [0x01#8] = .error .truncated := rfl
theorem test_encode_movm : encodeBytes (.movm 12 0x77) = [0x4C#8, 0x77#8] := by decide

/-- The class boundaries of rule R94. -/
theorem test_decode_boundaries :
    decodeWord 0x0FFF#16 = .add 15 15 15 ∧ decodeWord 0x1000#16 = .sub 0 0 0 ∧
    decodeWord 0x1FFF#16 = .sub 15 15 15 ∧ decodeWord 0x2000#16 = .mul 0 0 0 ∧
    decodeWord 0x2FFF#16 = .mul 15 15 15 ∧ decodeWord 0x3000#16 = .div 0 0 0 ∧
    decodeWord 0x3FFF#16 = .div 15 15 15 ∧ decodeWord 0x4000#16 = .movm 0 0 ∧
    decodeWord 0x40FF#16 = .movm 0 255 ∧ decodeWord 0x4100#16 = .movi 1 0 ∧
    decodeWord 0x47FF#16 = .movi 7 255 ∧ decodeWord 0x4800#16 = .movm 8 0 ∧
    decodeWord 0x4FFF#16 = .movm 15 255 ∧ decodeWord 0x5000#16 = .skip 5 0 ∧
    decodeWord 0xFFFF#16 = .skip 15 0xFFF := by decide

/-- Each row of spec/opcode_table.json, its fixed bits with the free bits zero (ADD's row needs one set). -/
theorem test_table_rows :
    decodeTableWord 16 0x0000 = some .halt0 ∧ decodeTableWord 16 0x0003 = some (.add 0 0 3) ∧
    decodeTableWord 16 0x1000 = some (.sub 0 0 0) ∧ decodeTableWord 16 0x2000 = some (.mul 0 0 0) ∧
    decodeTableWord 16 0x3000 = some (.div 0 0 0) ∧ decodeTableWord 16 0x4000 = some (.movm 0 0) ∧
    decodeTableWord 16 0x4800 = some (.movm 8 0) ∧ decodeTableWord 16 0x4300 = some (.movi 3 0) ∧
    decodeTableWord 16 0x5000 = some (.skip 5 0) ∧ decodeTableWord 16 0x6000 = some (.skip 6 0) ∧
    decodeTableWord 16 0x8000 = some (.skip 8 0) := by decide

/-! ### The arithmetic unit (V-A1 to V-A4) -/

theorem test_alu_add : aluAdd 0xC8 0x64 = (0x2C, true, false) ∧ aluAdd 0x7F 0x01 = (0x80, false, true) ∧
    aluAdd 0x64 0x1B = (0x7F, false, false) ∧ aluAdd 0x80 0x80 = (0x00, true, true) := by decide
theorem test_alu_sub : aluSub 0x03 0x05 = (0xFE, true, false) ∧ aluSub 0x80 0x01 = (0x7F, false, true) ∧
    aluSub 0x00 0x80 = (0x80, true, true) ∧ aluSub 0xC8 0x64 = (0x64, false, true) := by decide
theorem test_alu_mul : aluMul 0xFF 0xFF true = (0x01, true, false) ∧ aluMul 0x80 0xFF true = (0x80, true, true) ∧
    aluMul 0x02 0xC0 false = (0x80, false, false) ∧ aluMul 0x02 0xBF false = (0x7E, false, true) := by decide
theorem test_alu_div : aluDiv 0x05 0x00 false = (0x00, false, true) ∧ aluDiv 0xF9 0x02 true = (0xFD, true, false) ∧
    aluDiv 0x80 0xFF true = (0x80, true, true) ∧ aluDiv 0x80 0x01 false = (0x80, false, false) ∧
    aluDiv 0x64 0xC8 false = (0xFF, false, false) := by decide

/-! ### One step of each instruction -/

/-- V-A6: both operands are read before the write. -/
theorem test_step_add : seen 0x0773 (withRegs 0 0 0x90 false false) = some (2, 0, 0x20, true, true) := by decide
/-- V-A6: index 9 reads zero; it is the minuend. -/
theorem test_step_sub : seen 0x1913 (withRegs 5 0 0 false false) = some (2, 5, 0xFB, true, false) := by decide
/-- V-A5: CF survives MUL. -/
theorem test_step_mul : seen 0x2103 (withRegs 0x80 0xFF 0x80 true true) = some (2, 0x80, 0, true, false) := by
  decide
/-- V-A6: division by the zero that index 0 reads. -/
theorem test_step_div : seen 0x3103 (withRegs 6 0 9 true false) = some (2, 6, 0, true, true) := by decide
/-- V-M1. -/
theorem test_step_movi : seen 0x41C8 (withRegs 0 0 9 true true) = some (2, 0xC8, 9, true, true) := by decide
/-- V-M10: the store goes past a resident line of the cache. -/
theorem test_step_movm :
    (after (step ((State.reset.memRead Config.memSize 12).2.withFetchWord 16 0x4C77))).map
      (fun t => (t.mem.read 12, (t.line 12).block.byteAt 0, t.view 12, t.pc.toNat)) = some (0x77, 0, 0, 2) := by
  decide
/-- V-F2. -/
theorem test_step_skip : seen 0xFFFF (withRegs 1 2 3 true true) = some (2, 1, 3, true, true) := by decide
/-- V-F1: the zero word leaves `pc`, and its fetch has filled lines 0 and 1 only. -/
theorem test_step_halt0 :
    (after (step State.reset)).map
      (fun t => (t.pc.toNat, (t.line 0).valid, (t.line 1).valid, (t.line 2).valid)) = some (0, true, true, false) := by
  decide

/-! ### Cache, ports and the cycle's edges -/

/-- S1 and S2: a read miss, and a write that `mem` does not show. -/
theorem test_cache_scenarios :
    (State.reset.memRead Config.memSize 0).1 = 0 ∧
    (State.reset.memRead Config.memSize 0).2.line 0 = ⟨0, #v[0, 0, 0, 0], true, false⟩ ∧
    (wrote 10 42 State.reset).line 10 = ⟨0, #v[0, 0, 42, 0], true, true⟩ ∧
    ((wrote 10 42 State.reset).memRead Config.memSize 10).1 = 42 ∧
    (wrote 10 42 State.reset).mem.read 10 = 0 := by decide

/-- V-C4, step 2: the evicted block goes back to its aligned base. -/
theorem test_cache_eviction :
    raw4 0x1234 (wrote 0x5674 0xCD (wrote 0x1234 0xAB (State.reset.loadFrom 0x1234 [1, 2, 3, 4])))
      = [0xAB, 2, 3, 4] := by decide

/-- V-C6, steps 3 and 4: the second alias line's write-back loses the first line's byte. -/
theorem test_cache_alias_loss :
    raw4 8 ((((wrote 9 6 (wrote 8 5 State.reset)).memRead Config.memSize 72).2).memRead Config.memSize 73).2
      = [0, 6, 0, 0] := by decide

/-- V-C7: the flush drains in ascending order and keeps tags and blocks. -/
theorem test_cache_flush :
    raw4 8 ((wrote 9 6 (wrote 8 5 State.reset)).cacheFlush Config.memSize) = [0, 6, 0, 0] ∧
    ((wrote 9 6 (wrote 8 5 State.reset)).cacheFlush Config.memSize).line 8 = ⟨0, #v[5, 0, 0, 0], false, false⟩ := by
  decide +kernel

/-- V-F4: the last instruction that can be fetched, and the terminal state after it. -/
theorem test_terminal :
    seen 0x4107 { State.reset with pc := 65534 } = some (65536, 7, 0, false, false) ∧
    (after (step { State.reset with pc := 65536 })) = some { State.reset with pc := 65536 } := by decide

/-- `load_program` and the boot order of rule R192 (program P1's first word). -/
theorem test_boot :
    (after (hostRun [.init, .loadProgram [0x41, 0xC8], .step] State.reset)).map
      (fun t => (t.readReg 1, t.pc.toNat)) = some (0xC8, 2) := by decide

/-- Memory's canonical form: writing the unlisted byte removes the entry. -/
theorem test_memory_canonical :
    Memory.write (Memory.write (Memory.write [] 5 1) 3 2) 5 0 = [(3, 2)] ∧
    Memory.wf [(3, 2), (3, 1)] = false ∧ Memory.wf [(3, 0)] = false ∧ Memory.wf [(65536, 1)] = false := by decide

/-! ### Witnesses: each statement's hypotheses are met together -/

/-- A state whose line 8 is valid and dirty (after `mem_write(8, 5)`). -/
def dirty8 : State := wrote 8 5 State.reset

/-- A state that runs `ADD r1, r2` next. -/
def addNext : State := (withRegs 1 2 0 false false).withFetchWord 16 0x0123

theorem witness_DecodeEncodeAgree : Instr.wf .halt0 = true ∧ Instr.wf (.add 0 0 1) = true ∧
    Instr.wf (.sub 0 0 0) = true ∧ Instr.wf (.mul 15 15 15) = true ∧ Instr.wf (.div 0 0 0) = true ∧
    Instr.wf (.movm 0 0) = true ∧ Instr.wf (.movm 8 255) = true ∧ Instr.wf (.movi 1 0) = true ∧
    Instr.wf (.movi 7 255) = true ∧ Instr.wf (.skip 5 0) = true ∧ Instr.wf (.skip 15 0xFFF) = true := by decide
theorem witness_EveryWordFallsInItsArm : (0x0001#16).toNat ≤ 0x0FFF ∧ 0x1000 ≤ (0x1FFF#16).toNat ∧
    0x2000 ≤ (0x2000#16).toNat ∧ (0x3FFF#16).toNat ≤ 0x3FFF ∧ 0x4100 ≤ (0x4100#16).toNat ∧
    (0x40FF#16).toNat ≤ 0x40FF ∧ 0x4800 ≤ (0x4800#16).toNat ∧ 0x5000 ≤ (0xFFFF#16).toNat := by decide
theorem witness_memory_canonical : State.reset.mem.wf = true ∧ dirty8.mem.wf = true := by decide
theorem witness_DivisionByZero : (withRegs 5 0 0 false false).readReg 2 = 0 ∧ 8 ≤ (8#4 : RegIndex).toNat := by decide
theorem witness_MoviResultFrame : 1 ≤ (1#4 : RegIndex).toNat ∧ (7#4 : RegIndex).toNat ≤ 7 ∧
    8 ≤ (8#4 : RegIndex).toNat ∧ (after (exec (.movi 0 5) State.reset)).map (·.regs) = some State.reset.regs ∧
    (after (exec (.movi 7 5) State.reset)).map (·.readReg 7) = some 5 := by decide
theorem witness_MovmStoreFrame : State.reset.mem.wf = true ∧ (5#16 : Addr) ≠ movmAddr 8 := by decide
theorem witness_UnrecognizedOpcode : 5 ≤ (0x5000#16).toNat / 4096 ∧ 5 ≤ (0xFFFF#16).toNat / 4096 := by decide
theorem witness_ZeroWord : (fetch State.reset).1 = 0 := by decide
theorem witness_InvalidRegisterIndex : (8#4 : RegIndex).toNat = 8 ∧ (0#4 : RegIndex) = 0 ∧ ((0 : Int) ≤ 0) ∧
    ((8 : Int) ≤ 8) ∧ decodeWord 0x4100#16 = .movi 1 0 ∧ State.reset.regGet 8 = 0 := by decide
theorem witness_RegisterWriters :
    (∃ t, step addNext = .next t ∧ t.readReg 7 ≠ addNext.readReg 7) ∧
    (∃ t ans, hostOp (.regSet 1 9) State.reset = .next (t, ans) ∧ t.readReg 1 ≠ State.reset.readReg 1) ∧
    (∃ t ans, hostOp .reset addNext = .next (t, ans)) ∧ (∃ t ans, hostOp .cacheFlush dirty8 = .next (t, ans)) :=
  ⟨⟨_, rfl, by decide⟩, ⟨_, _, rfl, by decide⟩, ⟨_, _, rfl⟩, ⟨_, _, rfl⟩⟩
theorem witness_HostRegisterPorts : ((1 : Int) ≤ 7) ∧ ((7 : Int) ≤ 7) ∧ ((2 : Int) ≠ 1) ∧
    (State.reset.regSet 7 9).regGet 7 = 9 ∧ State.reset.regSet 0 9 = State.reset := by decide
theorem witness_FlagWriters :
    (∃ t, step ((withRegs 0xFF 0xFF 0 false false).withFetchWord 16 0x0123) = .next t ∧ t.CF = true) ∧
    (∃ t, step ((withRegs 0x7F 0x7F 0 false false).withFetchWord 16 0x2123) = .next t ∧ t.OF = true) ∧
    (∃ t ans, hostOp .init dirty8 = .next (t, ans)) ∧ (∃ t ans, hostOp (.memRead 5) dirty8 = .next (t, ans)) :=
  ⟨⟨_, rfl, by decide⟩, ⟨_, rfl, by decide⟩, ⟨_, _, rfl⟩, ⟨_, _, rfl⟩⟩
theorem witness_LineHitsOneAddress : dirty8.hit 8 = true ∧ indexOf (8#16 : Addr) = indexOf (8#16 : Addr) ∧
    indexOf (8#16 : Addr) = indexOf (72#16 : Addr) ∧ dirty8.hit 72 = false := by decide
theorem witness_BlockHasFourAliasLines : (0#2 : Offset) ≠ 3#2 := by decide
theorem witness_CacheReadHitAndMiss : dirty8.hit 8 = true ∧ dirty8.hit 72 = false ∧
    (dirty8.line (indexOf 72)).valid = true ∧ (dirty8.line (indexOf 72)).dirty = true ∧
    dirty8.mem.wf = true ∧ State.reset.hit 0 = false ∧ (State.reset.line (indexOf 0)).valid = false := by decide
theorem witness_CacheWrite : (3#2 : Offset) ≠ offsetOf 8 ∧ (9#6 : LineIndex) ≠ indexOf 8 := by decide
theorem witness_OutOfBounds : Config.memSize ≤ 65536 ∧ 65535 < Config.memSize := by decide
theorem witness_CacheBoundaryOverrun : 8 < (alignedBase 8).toNat + 4 ∧
    8 < (writeBackBase (dirty8.line 8).tag 8).toNat + 4 ∧
    8 < (writeBackBase (dirty8.line (indexOf 72)).tag (indexOf 72)).toNat + 4 := by decide
theorem witness_EvictionWritesBack : State.reset.mem.wf = true ∧
    indexOf (0x5674#16 : Addr) = indexOf (0x1234#16 : Addr) ∧ tagOf (0x5674#16 : Addr) ≠ tagOf (0x1234#16 : Addr) := by
  decide
theorem witness_FlushDrainsDirtyLines : dirty8.mem.wf = true ∧ (dirty8.line 8).valid = true ∧
    (dirty8.line 8).dirty = true ∧ (∀ j : LineIndex, 8 < j.toNat → (dirty8.line j).dirty = false) ∧
    (∀ i : LineIndex, (dirty8.line i).valid = true → (dirty8.line i).dirty = true →
      writeBackBase (dirty8.line i).tag i ≠ alignedBase 100) := by decide
theorem witness_OnlyMemWriteMakesDirty :
    (∃ t, step dirty8 = .next t ∧ (t.line 8).dirty = true) ∧
    (∃ t ans, hostOp (.memRead 5) dirty8 = .next (t, ans) ∧ (t.line 8).dirty = true) ∧
    ((wrote 9 6 dirty8).line 8).dirty = true :=
  ⟨⟨_, rfl, by decide⟩, ⟨_, _, rfl, by decide⟩, by decide⟩
theorem witness_StepRunsDecodedInstruction : State.reset.pc.toNat < 65535 ∧
    decodeBytes [addNext.view (addNext.pc.setWidth 16), addNext.view (addNext.pc.setWidth 16 + 1#16)]
      = .ok (.add 1 2 3, []) ∧ 65535 ≤ ({ State.reset with pc := 65535 } : State).pc.toNat :=
  ⟨by decide, rfl, by decide⟩
theorem witness_StepFetchesThenExecutes : (fetch addNext).1 ≠ 0 ∧ (fetch State.reset).1 = 0 := by decide
theorem witness_FetchReadsTwoBytes : ({ State.reset with pc := 65534 } : State).pc.toNat < 65535 ∧
    65535 ≤ ({ State.reset with pc := 65535 } : State).pc.toNat ∧
    (2#6 : LineIndex) ≠ indexOf (State.reset.pc.setWidth 16) ∧
    (2#6 : LineIndex) ≠ indexOf (State.reset.pc.setWidth 16 + 1#16) := by decide
theorem witness_TerminalStateStays :
    65535 ≤ ({ State.reset with pc := 65536 } : State).pc.toNat ∧ ({ State.reset with pc := 65536 } : State).Inv ∧
    (∃ t ans, hostOp .cacheFlush { State.reset with pc := 65536 } = .next (t, ans)) ∧
    (∃ t ans, hostOp .reset { State.reset with pc := 65536 } = .next (t, ans)) :=
  ⟨by decide, ⟨by decide, by decide, by decide, by decide⟩, ⟨_, _, rfl⟩, ⟨_, _, rfl⟩⟩
theorem witness_HaltedInPlace : State.reset.HaltedInPlace := ⟨by decide, by decide, by decide⟩
theorem witness_PcChangesOnlyForward : (∃ t, step addNext = .next t) ∧ (∃ t, run 1 addNext = .next t) ∧
    (∃ t ans, hostOp .reset addNext = .next (t, ans)) ∧ (∃ t ans, hostOp .regSnapshot addNext = .next (t, ans)) :=
  ⟨⟨_, rfl⟩, ⟨_, rfl⟩, ⟨_, _, rfl⟩, ⟨_, _, rfl⟩⟩
theorem witness_RunIsConsecutiveSteps : ∃ t, run 1 addNext = .next t := ⟨_, rfl⟩
theorem witness_RunStoresOnlyToMovmAddresses :
    (State.reset.withFetchWord 16 0x4C77).NoDirty ∧
    (∃ t, run 1 (State.reset.withFetchWord 16 0x4C77) = .next t ∧ t.mem.read 12 = 0x77) ∧
    1 ≤ (1#16 : Addr).toNat ∧ 16 ≤ (16#16 : Addr).toNat :=
  ⟨by unfold State.NoDirty; decide, ⟨_, rfl, by decide⟩, by decide, by decide⟩
theorem witness_DirtyImpliesValid :
    (∀ i, (dirty8.line i).dirty = true → (dirty8.line i).valid = true) ∧
    ∃ t, hostRun [.memRead 72, .cacheFlush] dirty8 = .next t :=
  ⟨by decide, ⟨_, rfl⟩⟩
theorem witness_invariant : dirty8.Inv ∧ (∃ t, step dirty8 = .next t) ∧
    (∃ t ans, hostOp (.memWrite 9 6) dirty8 = .next (t, ans)) ∧ (∃ t, hostRun [.step, .reset] dirty8 = .next t) :=
  ⟨⟨by decide, by decide, by decide, by decide⟩, ⟨_, rfl⟩, ⟨_, _, rfl⟩, ⟨_, rfl⟩⟩
theorem witness_OperationsAreIdempotent : State.reset.mem.wf = true ∧ (∃ t, step State.reset = .next t) ∧
    ∃ t ans, hostOp .cacheFlush dirty8 = .next (t, ans) :=
  ⟨by decide, ⟨_, rfl⟩, ⟨_, _, rfl⟩⟩
theorem witness_LoadProgram : 65536 < (List.replicate 65537 (0#8 : Byte)).length ∧
    (List.replicate 65536 (0#8 : Byte)).length ≤ 65536 ∧ State.reset.mem.wf = true :=
  ⟨by rw [List.length_replicate]; decide, by rw [List.length_replicate], by decide⟩
theorem witness_BootFetchesTheProgram : ([] : List Byte).length + 2 ≤ 65536 := by decide
theorem witness_MemorySnapshotIsRaw : 0 < (State.reset.memSnapshot 65535 4).length ∧
    (State.reset.memSnapshot 65535 4).length = 1 := by decide

end Sys2Proof.Tests
end

/-! ### Totality and determinism of the interface (00_scope.md rule R6) -/

namespace Sys2Proof.Machine

/-- An outcome that is a next state is no other next state: a total operation is a deterministic one. -/
theorem next_unique {σ φ ρ : Type} {o : Host.Outcome σ φ ρ} (h : ∃ p, o = .next p) :
    ∃ p, o = .next p ∧ ∀ q, o = .next q → q = p := by
  obtain ⟨p, rfl⟩ := h
  exact ⟨p, rfl, fun _ hq => (Host.Outcome.next.inj hq).symm⟩

/-- Every sequence of operations completes, since every operation does. -/
theorem hostRun_next (ops : List HostOp) (s : State) : ∃ t, hostRun ops s = .next t :=
  let ⟨t, h, _⟩ := hostRun_induction (P := fun _ => True) (fun _ _ _ _ _ _ => trivial) ops (s := s) trivial
  ⟨t, h⟩

/-- Settles O40: every instruction, every host operation and, by induction over the sequence, every sequence of
operations completes, and what completes has one next state. -/
theorem everyOperationHasOneNextState : Obligations.EveryOperationHasOneNextState := by
  refine ⟨fun s => next_unique (step_next s), fun op s => next_unique ?_, hostRun_next⟩
  obtain ⟨t, ans, h⟩ := hostOp_next op s
  exact ⟨(t, ans), h⟩

end Sys2Proof.Machine

/-! ### `dirty` implies `valid` (10_state.md rule R18) -/

namespace Sys2Proof.Machine

/-- The line invariant of rule R18, as `State.Inv.dirtyValid` and the laws of the cache state it. -/
def State.DirtyValid (s : State) : Prop := ∀ i : LineIndex, (s.line i).dirty = true → (s.line i).valid = true

variable {s t : State}

/-- The invariant speaks of the cache alone. -/
theorem State.DirtyValid.of_cache_eq (h : s.DirtyValid) (hc : t.cache = s.cache) : t.DirtyValid := by
  intro i hd
  simp only [State.line, hc] at hd ⊢
  exact h i hd

/-- A state without dirty lines meets the invariant. -/
theorem State.NoDirty.dirtyValid (h : s.NoDirty) : s.DirtyValid := fun i hd => by simp [h i] at hd

theorem State.noDirty_reset : State.reset.NoDirty := fun i => by simp [Line.init]

theorem State.noDirty_cacheFlush (size : Nat) (s : State) : (s.cacheFlush size).NoDirty := fun i => by simp

theorem State.memRead_dirtyValid (h : s.DirtyValid) (size a : Nat) : (s.memRead size a).2.DirtyValid := by
  rcases State.memRead_cases size a s with e | e <;> rw [e]
  · exact h
  · exact State.makeResident_dirtyValid h

theorem State.memWrite_dirtyValid (h : s.DirtyValid) (size a : Nat) (v : Byte) :
    (s.memWrite size a v).DirtyValid := by
  rcases State.memWrite_cases size a v s with e | e <;> rw [e]
  · exact h
  · exact State.cacheWrite_dirtyValid h

/-- Of a step only the fetch touches the cache. -/
theorem step_dirtyValid (h : s.DirtyValid) (hs : step s = .next t) : t.DirtyValid :=
  State.DirtyValid.of_cache_eq (fetch_dirtyValid h) (exec_cache hs)

theorem run_dirtyValid {n : Nat} (h : s.DirtyValid) (hr : run n s = .next t) : t.DirtyValid := by
  obtain ⟨u, hu, hdv⟩ := run_induction (fun _ _ => step_dirtyValid) n h
  cases hu.symm.trans hr
  exact hdv

theorem hostOp_dirtyValid {op : HostOp} {ans : HostAnswer} (h : s.DirtyValid)
    (ho : hostOp op s = .next (t, ans)) : t.DirtyValid := by
  rcases hostOp_cases ho with ⟨_, rfl⟩ | ⟨_, rfl⟩ | ⟨l, _, rfl⟩ | ⟨_, hs⟩ | ⟨n, _, hr⟩ | ⟨_, rfl⟩ | ⟨k, v, _, rfl⟩ |
    ⟨a, _, rfl⟩ | ⟨a, v, _, rfl⟩ | ⟨_, rfl⟩
  · exact State.noDirty_reset.dirtyValid
  · exact h
  · exact h.of_cache_eq State.loadProgram_cache
  · exact step_dirtyValid h hs
  · exact run_dirtyValid h hr
  · exact (State.noDirty_cacheFlush _ s).dirtyValid
  · exact h.of_cache_eq State.regSet_cache
  · exact State.memRead_dirtyValid h _ a
  · exact State.memWrite_dirtyValid h _ a v
  · exact h

theorem hostRun_dirtyValid {ops : List HostOp} (h : s.DirtyValid) (hr : hostRun ops s = .next t) :
    t.DirtyValid := by
  obtain ⟨u, hu, hdv⟩ := hostRun_induction (fun _ _ _ _ => hostOp_dirtyValid) ops h
  cases hu.symm.trans hr
  exact hdv

/-- An address hits only in a valid line (rule R41). -/
theorem State.valid_of_hit {a : Addr} (h : s.hit a = true) : (s.line (indexOf a)).valid = true := by
  rw [State.hit, Bool.and_eq_true] at h
  exact h.1

/-- A cache write leaves its line valid, since it makes the address hit first, and dirty (rule R47). -/
theorem State.cacheWrite_line_valid_dirty (size : Nat) (s : State) (a : Addr) (v : Byte) :
    ((s.cacheWrite size a v).line (indexOf a)).valid = true ∧
      ((s.cacheWrite size a v).line (indexOf a)).dirty = true := by
  rw [State.cacheWrite, State.storeInLine_line]
  exact ⟨State.valid_of_hit State.makeResident_hit, rfl⟩

/-- Settles O41: every operation keeps the invariant, so by induction every sequence of them does; the lines that
`init`, a flush, a miss and a cache write leave are read off the laws of these operations. -/
theorem dirtyImpliesValidAlways : Obligations.DirtyImpliesValidAlways := by
  refine ⟨fun ops s t h hr => hostRun_dirtyValid h hr, fun s i => ?_, fun s a => ?_,
    State.cacheWrite_line_valid_dirty Config.memSize⟩
  · simp [Line.init]
  · simp [State.miss_line]

end Sys2Proof.Machine

/-! ### Addresses and cache writes (20_memory.md rules R40, R47) -/

namespace Sys2Proof.Machine

/-- Settles O19: the decoder's fields are the slices `a[15:6]`, `a[5:0]` and `a[1:0]`; once their numbers are known,
the overlap of offset and index and the sum are facts of division by 4 and 64. -/
theorem addressDecomposition : Obligations.AddressDecomposition := by
  intro a
  refine ⟨tagOf_toNat a, indexOf_toNat a, offsetOf_toNat a, ?_, ?_⟩
  · rw [offsetOf_toNat, indexOf_toNat]; omega
  · rw [tagOf_toNat, indexOf_toNat]; omega

variable {size : Nat} {s : State} {a : Addr} {v : Byte} {i : LineIndex}

/-- The address written hits afterwards. -/
@[simp] theorem State.cacheWrite_hit : (s.cacheWrite size a v).hit a = true := by
  rw [State.cacheWrite, State.storeInLine_hit, State.makeResident_hit]

/-- The written byte of the line is the value. -/
@[simp] theorem State.cacheWrite_lineByte : (s.cacheWrite size a v).lineByte a = v :=
  State.storeInLine_lineByte

/-- The line's other bytes are those that a read of the address leaves. -/
theorem State.cacheWrite_byteAt_other {o : Offset} (h : o ≠ offsetOf a) :
    ((s.cacheWrite size a v).line (indexOf a)).block.byteAt o
      = ((s.cacheRead size a).2.line (indexOf a)).block.byteAt o := by
  rw [State.cacheWrite, State.storeInLine_line]
  exact Block.byteAt_withByte_other _ v h

/-- A cache write leaves every other line alone. -/
theorem State.cacheWrite_line_other (h : i ≠ indexOf a) : (s.cacheWrite size a v).line i = s.line i := by
  rw [State.cacheWrite, State.storeInLine_line_other h, State.makeResident_line_other h]

/-- `mem` is what a read of the address leaves: the value does not reach it. -/
theorem State.cacheWrite_mem : (s.cacheWrite size a v).mem = (s.cacheRead size a).2.mem :=
  State.storeInLine_mem

/-- Settles O23: a cache write is the residence that a read makes, then one store into the resident line. -/
theorem cacheWriteAllocatesAndDirties : Obligations.CacheWriteAllocatesAndDirties := by
  intro s a v
  obtain ⟨_, hdirty⟩ := State.cacheWrite_line_valid_dirty Config.memSize s a v
  exact ⟨State.cacheWrite_hit, hdirty, State.cacheWrite_lineByte, fun _ => State.cacheWrite_byteAt_other,
    fun _ => State.cacheWrite_line_other, State.cacheWrite_mem, State.cacheWrite_pc, State.cacheWrite_regs,
    State.cacheWrite_CF, State.cacheWrite_OF⟩

end Sys2Proof.Machine

/-! ### The arms of the decoder (30_encoding.md rules R94, R130) -/

namespace Sys2Proof

open Laws.RoundTrip (ne_zero_of_opField)

variable {w : Word}

/-- The opcode that a range of words shares. -/
theorem opField_eq_ofNat {n : Nat} (h : w.toNat / 4096 = n) : opField w = BitVec.ofNat 4 n := by
  rw [← h, ← opField_toNat, BitVec.ofNat_toNat, BitVec.setWidth_eq]

/-- MOV's form on the word's number: the register form has field 1 to 7 (rule R130). -/
theorem movSelectsRegister_fdField_iff :
    movSelectsRegister (fdField w) = true ↔ 1 ≤ w.toNat / 256 % 16 ∧ w.toNat / 256 % 16 ≤ 7 := by
  simp [movSelectsRegister, fdField_toNat]

/-! One equation for each arm; `decodeWord_eq_halt0` is the zero word's. -/

theorem decodeWord_add (hw : w ≠ 0x0000#16) (ho : opField w = 0#4) :
    decodeWord w = .add (faField w) (fbField w) (fmtField w) := by
  simp [decodeWord, hw, ho]

theorem decodeWord_sub (ho : opField w = 1#4) : decodeWord w = .sub (faField w) (fbField w) (fmtField w) := by
  simp [decodeWord, ne_zero_of_opField ho, ho]

theorem decodeWord_mul (ho : opField w = 2#4) : decodeWord w = .mul (faField w) (fbField w) (fmtField w) := by
  simp [decodeWord, ne_zero_of_opField ho, ho]

theorem decodeWord_div (ho : opField w = 3#4) : decodeWord w = .div (faField w) (fbField w) (fmtField w) := by
  simp [decodeWord, ne_zero_of_opField ho, ho]

theorem decodeWord_movi (ho : opField w = 4#4) (hsel : movSelectsRegister (fdField w) = true) :
    decodeWord w = .movi (fdField w) (imm8Field w) := by
  simp [decodeWord, ne_zero_of_opField ho, ho, hsel]

theorem decodeWord_movm (ho : opField w = 4#4) (hsel : ¬ movSelectsRegister (fdField w) = true) :
    decodeWord w = .movm (fdField w) (imm8Field w) := by
  simp [decodeWord, ne_zero_of_opField ho, ho, hsel]

theorem decodeWord_skip (ho : 5 ≤ (opField w).toNat) : decodeWord w = .skip (opField w) (ignoredField w) := by
  have hne (op : BitVec 4) (hop : op.toNat < 5) : opField w ≠ op := by rintro rfl; omega
  have hw : w ≠ 0x0000#16 := by rintro rfl; simp [opField] at ho
  rw [decodeWord, if_neg hw, if_neg (hne 0 (by decide)), if_neg (hne 1 (by decide)), if_neg (hne 2 (by decide)),
    if_neg (hne 3 (by decide)), if_neg (hne 4 (by decide))]

/-- Settles O2: each range of words fixes the opcode, and for opcode 4 the form, so one arm's equation applies; the
fields it answers are the numbers that the bit positions give. -/
theorem everyWordFallsInItsArm : Obligations.EveryWordFallsInItsArm := by
  intro w
  have hsel := movSelectsRegister_fdField_iff (w := w)
  have fieldsR := And.intro (faField_toNat w) (And.intro (fbField_toNat w) (fmtField_toNat w))
  have fieldsM := And.intro (fdField_toNat w) (imm8Field_toNat w)
  refine ⟨fun h => ?halt0, fun hlo hhi => ?add, fun hlo hhi => ?sub, fun hlo hhi => ?mul, fun hlo hhi => ?div,
    fun hlo hhi => ?movi, fun h => ?movm, fun hlo => ?skip⟩
  case halt0 => exact Machine.decodeWord_eq_halt0.mpr (BitVec.eq_of_toNat_eq h)
  case add =>
    have hw : w ≠ 0x0000#16 := by rintro rfl; simp at hlo
    exact ⟨_, _, _, decodeWord_add hw (opField_eq_ofNat (by omega)), fieldsR⟩
  case sub => exact ⟨_, _, _, decodeWord_sub (opField_eq_ofNat (by omega)), fieldsR⟩
  case mul => exact ⟨_, _, _, decodeWord_mul (opField_eq_ofNat (by omega)), fieldsR⟩
  case div => exact ⟨_, _, _, decodeWord_div (opField_eq_ofNat (by omega)), fieldsR⟩
  case movi => exact ⟨_, _, decodeWord_movi (opField_eq_ofNat (by omega)) (hsel.mpr (by omega)), fieldsM⟩
  case movm => exact ⟨_, _, decodeWord_movm (opField_eq_ofNat (by omega)) (hsel.not.mpr (by omega)), fieldsM⟩
  case skip =>
    exact ⟨_, _, decodeWord_skip (by rw [opField_toNat]; omega), opField_toNat w, ignoredField_toNat w⟩

end Sys2Proof

/-! ### What can make a line dirty (70_reset_and_hazards.md rule R188) -/

namespace Sys2Proof.Machine

variable {size : Nat} {s t u : State} {a : Nat} {v : Byte} {i : LineIndex}

/-- From `s` to `t` no line becomes dirty. -/
def State.NoNewDirty (s t : State) : Prop := ∀ i : LineIndex, (t.line i).dirty = true → (s.line i).dirty = true

theorem State.NoNewDirty.refl (s : State) : s.NoNewDirty s := fun _ => id

theorem State.NoNewDirty.trans (h : s.NoNewDirty t) (h' : t.NoNewDirty u) : s.NoNewDirty u := fun i => h i ∘ h' i

/-- Whatever leaves the cache alone makes no line dirty. -/
theorem State.NoNewDirty.of_cache_eq (h : t.cache = s.cache) : s.NoNewDirty t := fun i hd => by
  rwa [State.line, h] at hd

/-- Where no line is dirty at the end, none became dirty. -/
theorem State.NoDirty.noNewDirty (h : t.NoDirty) (s : State) : s.NoNewDirty t := fun i hd => by simp [h i] at hd

/-- A read drops or keeps the line it accesses and dirties none (rule R46). -/
theorem State.memRead_noNewDirty (size a : Nat) (s : State) : s.NoNewDirty (s.memRead size a).2 := by
  rcases State.memRead_cases size a s with e | e <;> rw [e]
  · exact .refl s
  · exact fun _ => State.makeResident_dirty

/-- A run makes no line dirty, since no step does. -/
theorem run_noNewDirty {n : Nat} (hr : run n s = .next t) : s.NoNewDirty t := by
  have hstep (w w' : State) (h : s.NoNewDirty w) (hs : step w = .next w') : s.NoNewDirty w' :=
    h.trans fun _ => step_dirty hs
  obtain ⟨w, hw, h⟩ := run_induction hstep n (.refl s)
  cases hw.symm.trans hr
  exact h

/-- Of the host's operations only `mem_write` can make a line dirty. -/
theorem hostOp_noNewDirty {op : HostOp} {ans : HostAnswer} (hop : ∀ a v, op ≠ .memWrite a v)
    (ho : hostOp op s = .next (t, ans)) : s.NoNewDirty t := by
  rcases hostOp_cases ho with ⟨_, rfl⟩ | ⟨_, rfl⟩ | ⟨l, _, rfl⟩ | ⟨_, hs⟩ | ⟨n, _, hr⟩ | ⟨_, rfl⟩ | ⟨k, v, _, rfl⟩ |
    ⟨a, _, rfl⟩ | ⟨a, v, e, _⟩ | ⟨_, rfl⟩
  · exact State.noDirty_reset.noNewDirty s
  · exact .of_cache_eq rfl
  · exact .of_cache_eq State.loadProgram_cache
  · exact fun _ => step_dirty hs
  · exact run_noNewDirty hr
  · exact (State.noDirty_cacheFlush _ s).noNewDirty s
  · exact .of_cache_eq State.regSet_cache
  · exact State.memRead_noNewDirty _ a s
  · exact absurd e (hop a v)
  · exact .refl t

/-- A write through Memory leaves every line but its own alone. -/
theorem State.memWrite_line_other (h : i ≠ indexOf (BitVec.ofNat 16 a)) :
    (s.memWrite size a v).line i = s.line i := by
  rcases State.memWrite_cases size a v s with e | e <;> rw [e]
  exact State.cacheWrite_line_other h

/-- A write to an address of the store leaves that address's line dirty (rule R47). -/
theorem State.memWrite_line_dirty (h : a < size) :
    ((s.memWrite size a v).line (indexOf (BitVec.ofNat 16 a))).dirty = true := by
  rw [State.memWrite_of_lt h]
  exact (State.cacheWrite_line_valid_dirty size s _ v).2

/-- A read that misses changes the state: its address hits afterwards. -/
theorem State.memRead_ne_of_miss (ha : a < size) (h : s.hit (BitVec.ofNat 16 a) = false) :
    (s.memRead size a).2 ≠ s := by
  intro e
  have hhit : (s.memRead size a).2.hit (BitVec.ofNat 16 a) = true := by
    rw [State.memRead_of_lt ha]
    exact State.makeResident_hit
  rw [e, h] at hhit
  exact Bool.false_ne_true hhit

/-- Settles O30: the two memory ports by definition; a write reaches its own line only and dirties it; the read of
address 0 after reset, a miss, is the read that changes the state; and steps and all other operations make no line
dirty. -/
theorem onlyMemWriteMakesDirty : Obligations.OnlyMemWriteMakesDirty := by
  refine ⟨fun a v s => ⟨rfl, rfl, fun i hi hd => ?otherLine⟩, fun _ _ _ => State.memWrite_line_dirty,
    ⟨0, State.reset, _, _, rfl, State.memRead_ne_of_miss (by decide) (by decide)⟩,
    fun s t i hs => step_dirty hs, fun op s t ans i hop ho => hostOp_noNewDirty hop ho i⟩
  case otherLine => rwa [State.memWrite_line_other hi] at hd

end Sys2Proof.Machine

/-! ### The decoder on all words, and its inverse (30_encoding.md rules R91 to R94) -/

namespace Sys2Proof

open Laws.RoundTrip (ne_zero_of_opField)

variable {w : Word}

/-! A word put together again from its fields, in each format. -/

theorem formatR_fields (w : Word) : opField w ++ faField w ++ fbField w ++ fmtField w = w := by
  apply BitVec.eq_of_toNat_eq
  rw [formatR_toNat, opField_toNat, faField_toNat, fbField_toNat, fmtField_toNat]
  omega

theorem formatM_fields (w : Word) : opField w ++ fdField w ++ imm8Field w = w := by
  apply BitVec.eq_of_toNat_eq
  rw [formatM_toNat, opField_toNat, fdField_toNat, imm8Field_toNat]
  omega

theorem formatX_fields (w : Word) : opField w ++ ignoredField w = w := by
  apply BitVec.eq_of_toNat_eq
  rw [formatX_toNat, opField_toNat, ignoredField_toNat]
  omega

/-- The two bytes of a word, high byte first, are the word (rule R90). -/
theorem highByte_append_lowByte (w : Word) : w.extractLsb' 8 8 ++ w.extractLsb' 0 8 = w := by
  apply BitVec.eq_of_toNat_eq
  have := append_toNat (w.extractLsb' 8 8) (w.extractLsb' 0 8)
  simp [Nat.shiftRight_eq_div_pow] at this ⊢
  omega

theorem decodeBytes_wordBytes (w : Word) (rest : List Byte) :
    decodeBytes (wordBytes w ++ rest) = .ok (decodeWord w, rest) := by
  simp only [wordBytes, List.cons_append, List.nil_append, decodeBytes, highByte_append_lowByte]

/-- The arms of the decoder: every word falls in exactly one of them, with what selects it (rules R94, R130). -/
theorem decodeWord_cases (w : Word) :
    (w = 0x0000#16 ∧ decodeWord w = .halt0) ∨
    (w ≠ 0x0000#16 ∧ opField w = 0#4 ∧ decodeWord w = .add (faField w) (fbField w) (fmtField w)) ∨
    (opField w = 1#4 ∧ decodeWord w = .sub (faField w) (fbField w) (fmtField w)) ∨
    (opField w = 2#4 ∧ decodeWord w = .mul (faField w) (fbField w) (fmtField w)) ∨
    (opField w = 3#4 ∧ decodeWord w = .div (faField w) (fbField w) (fmtField w)) ∨
    (opField w = 4#4 ∧ movSelectsRegister (fdField w) = true ∧ decodeWord w = .movi (fdField w) (imm8Field w)) ∨
    (opField w = 4#4 ∧ ¬ movSelectsRegister (fdField w) = true ∧
      decodeWord w = .movm (fdField w) (imm8Field w)) ∨
    (5 ≤ (opField w).toNat ∧ decodeWord w = .skip (opField w) (ignoredField w)) := by
  have hop : ∀ op : BitVec 4, op = 0#4 ∨ op = 1#4 ∨ op = 2#4 ∨ op = 3#4 ∨ op = 4#4 ∨ 5 ≤ op.toNat := by decide
  rcases hop (opField w) with ho | ho | ho | ho | ho | ho
  · by_cases hw : w = 0x0000#16
    · simp [hw, Machine.decodeWord_eq_halt0]
    · simp [hw, ho, decodeWord_add hw ho]
  · simp [ho, decodeWord_sub ho]
  · simp [ho, decodeWord_mul ho]
  · simp [ho, decodeWord_div ho]
  · by_cases hsel : movSelectsRegister (fdField w) = true
    · simp [ho, hsel, decodeWord_movi ho hsel]
    · simp [ho, hsel, decodeWord_movm ho hsel]
  · simp [ho, decodeWord_skip ho]

/-- MOV's memory form has a field that selects no register (rule R130). -/
theorem movm_wf_of_not_movSelectsRegister (imm8 : Byte) :
    ∀ fd : BitVec 4, ¬ movSelectsRegister fd = true → Instr.wf (.movm fd imm8) = true := by
  simp only [Instr.wf]; decide

/-- The decoder answers only terms that some word stands for. -/
theorem decodeWord_wf (w : Word) : (decodeWord w).wf = true := by
  rcases decodeWord_cases w with ⟨_, e⟩ | ⟨hw, ho, e⟩ | ⟨_, e⟩ | ⟨_, e⟩ | ⟨_, e⟩ | ⟨_, hsel, e⟩ | ⟨_, hsel, e⟩ |
    ⟨ho, e⟩ <;> rw [e]
  · rfl
  · have hfields : ¬ (faField w = 0#4 ∧ fbField w = 0#4 ∧ fmtField w = 0#4) := by
      rintro ⟨ha, hb, hf⟩
      apply hw
      rw [← formatR_fields w, ho, ha, hb, hf]
      decide
    rw [Instr.wf, Bool.not_eq_true', ← Bool.not_eq_true]
    simpa using hfields
  · rfl
  · rfl
  · rfl
  · exact hsel
  · exact movm_wf_of_not_movSelectsRegister _ _ hsel
  · simpa [Instr.wf] using ho

/-- The encoder puts the fields back where the decoder took them. -/
theorem encode_decodeWord (w : Word) : encode (decodeWord w) = w := by
  rcases decodeWord_cases w with ⟨hw, e⟩ | ⟨_, ho, e⟩ | ⟨ho, e⟩ | ⟨ho, e⟩ | ⟨ho, e⟩ | ⟨ho, _, e⟩ | ⟨ho, _, e⟩ |
    ⟨_, e⟩ <;> rw [e, encode]
  · exact hw.symm
  · rw [← ho, formatR_fields]
  · rw [← ho, formatR_fields]
  · rw [← ho, formatR_fields]
  · rw [← ho, formatR_fields]
  · rw [← ho, formatM_fields]
  · rw [← ho, formatM_fields]
  · rw [formatX_fields]

/-- The round trip of the model's per-instruction laws, for every instruction. -/
theorem decodeWord_encode {i : Instr} (h : i.wf = true) : decodeWord (encode i) = i := by
  cases i with
  | halt0 => exact Laws.RoundTrip.halt0 h
  | add fa fb fmt => exact Laws.RoundTrip.add fa fb fmt h
  | sub fa fb fmt => exact Laws.RoundTrip.sub fa fb fmt h
  | mul fa fb fmt => exact Laws.RoundTrip.mul fa fb fmt h
  | div fa fb fmt => exact Laws.RoundTrip.div fa fb fmt h
  | movm fd imm8 => exact Laws.RoundTrip.movm fd imm8 h
  | movi fd imm8 => exact Laws.RoundTrip.movi fd imm8 h
  | skip op ignored => exact Laws.RoundTrip.skip op ignored h

/-- Settles O1: instruction by instruction one way, arm by arm of the decoder the other way; on bytes the two bytes
of the encoded word are the word again. -/
theorem decodeEncodeAgree : Obligations.DecodeEncodeAgree := by
  refine ⟨fun _ => decodeWord_encode, fun w => ⟨decodeWord_wf w, encode_decodeWord w⟩, fun i rest h => ?_⟩
  rw [encodeBytes, decodeBytes_wordBytes, decodeWord_encode h]

/-- Settles O3: each word by evaluation of the decoder. -/
theorem specWordsDecode : Obligations.SpecWordsDecode := by
  unfold Obligations.SpecWordsDecode
  decide

end Sys2Proof

/-! ### The opcode table (30_encoding.md rule R103) -/

namespace Sys2Proof

variable {w : Word}

/-- The mnemonic that the table's rows below the zero word's give to a high byte; the masks of these rows fix
nothing of the low one. -/
def highByteMnemonic (hi : Byte) : Option String :=
  (opcodeTable.tail.find? fun r => hi &&& r.mask.extractLsb' 8 8 == r.pattern.extractLsb' 8 8).map
    TableRow.mnemonic

theorem tableMnemonic_of_ne_zero (hw : w ≠ 0x0000#16) : tableMnemonic w = highByteMnemonic (w.extractLsb' 8 8) := by
  have hlow : ∀ r ∈ opcodeTable.tail, r.mask.extractLsb' 0 8 = 0#8 ∧ r.pattern.extractLsb' 0 8 = 0#8 := by decide
  have hfind : opcodeTable.tail.find? (fun r => w &&& r.mask == r.pattern)
      = opcodeTable.tail.find? (fun r => w.extractLsb' 8 8 &&& r.mask.extractLsb' 8 8 == r.pattern.extractLsb' 8 8) :=
    List.find?_congr fun r hr => mask_highByte w _ _ (hlow r hr).1 (hlow r hr).2
  have hzero : (w &&& 0xFFFF#16 == 0x0000#16) = false := by
    rw [show 0xFFFF#16 = BitVec.allOnes 16 from rfl, BitVec.and_allOnes]
    simpa using hw
  rw [tableMnemonic, highByteMnemonic, ← hfind, opcodeTable, List.find?_cons_of_neg (by simp [hzero])]
  rfl

/-- The mnemonic of a non-zero word by its opcode and, for MOV, its destination field (rules R94, R130). -/
def fieldsMnemonic (op fd : BitVec 4) : String :=
  if op = 0#4 then "ADD" else if op = 1#4 then "SUB" else if op = 2#4 then "MUL" else if op = 3#4 then "DIV"
  else if op = 4#4 then (if movSelectsRegister fd then "MOVI" else "MOVM") else "SKIP"

theorem decodeWord_mnemonic (hw : w ≠ 0x0000#16) :
    (decodeWord w).mnemonic = fieldsMnemonic (opField w) (fdField w) := by
  rcases decodeWord_cases w with ⟨h, _⟩ | ⟨_, ho, e⟩ | ⟨ho, e⟩ | ⟨ho, e⟩ | ⟨ho, e⟩ | ⟨ho, hsel, e⟩ | ⟨ho, hsel, e⟩ |
    ⟨ho, e⟩
  · exact absurd h hw
  · simp [e, ho, fieldsMnemonic, Instr.mnemonic]
  · simp [e, ho, fieldsMnemonic, Instr.mnemonic]
  · simp [e, ho, fieldsMnemonic, Instr.mnemonic]
  · simp [e, ho, fieldsMnemonic, Instr.mnemonic]
  · simp [e, ho, hsel, fieldsMnemonic, Instr.mnemonic]
  · simp [e, ho, hsel, fieldsMnemonic, Instr.mnemonic]
  · have hskip : ∀ op : BitVec 4, 5 ≤ op.toNat → ¬ op = 0#4 ∧ ¬ op = 1#4 ∧ ¬ op = 2#4 ∧ ¬ op = 3#4 ∧ ¬ op = 4#4 := by
      decide
    obtain ⟨h0, h1, h2, h3, h4⟩ := hskip _ ho
    simp only [e, Instr.mnemonic, fieldsMnemonic, h0, h1, h2, h3, h4, if_false]

/-- On the 256 high bytes the rows in priority order name what opcode and destination field say. -/
theorem highByteMnemonic_eq :
    ∀ hi : Byte, highByteMnemonic hi = some (fieldsMnemonic (hi.extractLsb' 4 4) (hi.extractLsb' 0 4)) := by
  decide

/-- Settles O4: the zero word has the first row to itself; for every other word both the table's rows and the
decoder's arms look at the high byte only, which has 256 values. -/
theorem opcodeTableAgreesWithDecoder : Obligations.OpcodeTableAgreesWithDecoder := by
  intro w
  by_cases hw : w = 0x0000#16
  · rw [hw]; rfl
  · have hop : (w.extractLsb' 8 8).extractLsb' 4 4 = opField w := by
      ext i hi; simp [opField, ← Nat.add_assoc, show 4 + i < 8 by omega]
    have hfd : (w.extractLsb' 8 8).extractLsb' 0 4 = fdField w := by
      ext i hi; simp [fdField, show i < 8 by omega]
    rw [tableMnemonic_of_ne_zero hw, highByteMnemonic_eq, hop, hfd, decodeWord_mnemonic hw]

end Sys2Proof

/-! ### The invariant of the machine (10_state.md sections 3, 5 and 6) -/

namespace Sys2Proof.Machine

variable {s t : State} {size : Nat}

theorem State.terminal_iff : s.terminal = true ↔ 65535 ≤ s.pc.toNat := by
  rw [State.terminal, decide_eq_true_eq, Config.memSize]

/-- In a terminal state a step does nothing (rules R140, R145). -/
theorem step_terminal (h : s.terminal = true) : step s = .next s := by rw [step, fetch_terminal h]; rfl

/-- Where a step leaves `pc`, as a number: a step that adds 2 starts below 65535, so the sum does not wrap. -/
theorem step_pc_cases (h : step s = .next t) :
    t.pc = s.pc ∨ s.pc.toNat < 65535 ∧ t.pc.toNat = s.pc.toNat + 2 := by
  cases hterm : s.terminal
  · have hpc := State.not_terminal_iff.mp hterm
    rw [step_pc h]
    split
    · exact .inl rfl
    · refine .inr ⟨hpc, ?_⟩
      rw [BitVec.toNat_add]
      simp only [BitVec.toNat_ofNat]
      omega
  · rw [step_terminal hterm] at h
    cases h
    exact .inl rfl

/-- What `pc` is in every reachable state: even and at most the store's size (rules R13, R14). -/
def State.PcOk (s : State) : Prop := s.pc.toNat % 2 = 0 ∧ s.pc.toNat ≤ Config.memSize

theorem State.PcOk.of_pc_eq (h : s.PcOk) (hpc : t.pc = s.pc) : t.PcOk := by rw [State.PcOk, hpc]; exact h

theorem State.PcOk.of_pc_eq_zero (hpc : t.pc = 0) : t.PcOk := by simp [State.PcOk, hpc]

/-- The invariant part by part. -/
theorem State.inv_iff : s.Inv ↔ s.mem.wf = true ∧ s.DirtyValid ∧ s.PcOk :=
  ⟨fun ⟨hm, hd, he, hb⟩ => ⟨hm, hd, he, hb⟩, fun ⟨hm, hd, he, hb⟩ => ⟨hm, hd, he, hb⟩⟩

theorem step_wf (h : s.mem.wf = true) (hs : step s = .next t) : t.mem.wf = true := exec_wf hs (fetch_wf h)

/-- An even `pc` below 65535 is at most 65534, so 65536 bounds the sum. -/
theorem step_pcOk (h : s.PcOk) (hs : step s = .next t) : t.PcOk := by
  rcases step_pc_cases hs with hpc | ⟨hlt, hpc⟩
  · exact h.of_pc_eq hpc
  · obtain ⟨he, hb⟩ := h
    rw [State.PcOk, hpc, memSize_eq]
    omega

theorem step_inv (h : s.Inv) (hs : step s = .next t) : t.Inv := by
  obtain ⟨hm, hd, hpc⟩ := State.inv_iff.mp h
  exact State.inv_iff.mpr ⟨step_wf hm hs, step_dirtyValid hd hs, step_pcOk hpc hs⟩

theorem run_inv {n : Nat} (h : s.Inv) (hr : run n s = .next t) : t.Inv := by
  obtain ⟨u, hu, hi⟩ := run_induction (fun _ _ => step_inv) n h
  cases hu.symm.trans hr
  exact hi

theorem State.reset_inv : State.reset.Inv :=
  State.inv_iff.mpr ⟨rfl, State.noDirty_reset.dirtyValid, .of_pc_eq_zero rfl⟩

theorem State.cacheWrite_wf {a : Addr} {v : Byte} (h : s.mem.wf = true) :
    (s.cacheWrite size a v).mem.wf = true := by
  rw [State.cacheWrite_mem]
  exact State.makeResident_wf h

theorem State.memRead_wf {a : Nat} (h : s.mem.wf = true) : (s.memRead size a).2.mem.wf = true := by
  rcases State.memRead_cases size a s with e | e <;> rw [e]
  · exact h
  · exact State.makeResident_wf h

theorem State.memWrite_wf {a : Nat} {v : Byte} (h : s.mem.wf = true) : (s.memWrite size a v).mem.wf = true := by
  rcases State.memWrite_cases size a v s with e | e <;> rw [e]
  · exact h
  · exact State.cacheWrite_wf h

theorem State.cacheFlush_wf (h : s.mem.wf = true) : (s.cacheFlush size).mem.wf = true := by
  rw [State.cacheFlush_mem]
  exact State.drain_wf h

theorem State.loadProgram_wf {l : List Byte} (h : s.mem.wf = true) : (s.loadProgram l).2.mem.wf = true := by
  unfold State.loadProgram
  split
  · exact h
  · exact State.loadFrom_wf h

/-- Every operation but a step and a run either leaves `pc` or zeroes it; memory's form and the lines' rule are the
laws of the operations. -/
theorem hostOp_inv {op : HostOp} {ans : HostAnswer} (h : s.Inv) (ho : hostOp op s = .next (t, ans)) : t.Inv := by
  have hdv := hostOp_dirtyValid h.dirtyValid ho
  obtain ⟨hm, _, hpc⟩ := State.inv_iff.mp h
  rcases hostOp_cases ho with ⟨_, rfl⟩ | ⟨_, rfl⟩ | ⟨l, _, rfl⟩ | ⟨_, hs⟩ | ⟨n, _, hr⟩ | ⟨_, rfl⟩ | ⟨k, v, _, rfl⟩ |
    ⟨a, _, rfl⟩ | ⟨a, v, _, rfl⟩ | ⟨_, rfl⟩
  · exact State.reset_inv
  · exact State.inv_iff.mpr ⟨hm, hdv, .of_pc_eq_zero rfl⟩
  · exact State.inv_iff.mpr ⟨State.loadProgram_wf hm, hdv, hpc.of_pc_eq State.loadProgram_pc⟩
  · exact step_inv h hs
  · exact run_inv h hr
  · exact State.inv_iff.mpr ⟨State.cacheFlush_wf hm, hdv, hpc.of_pc_eq State.cacheFlush_pc⟩
  · exact State.inv_iff.mpr ⟨by rwa [State.regSet_mem], hdv, hpc.of_pc_eq State.regSet_pc⟩
  · exact State.inv_iff.mpr ⟨State.memRead_wf hm, hdv, hpc.of_pc_eq State.memRead_pc⟩
  · exact State.inv_iff.mpr ⟨State.memWrite_wf hm, hdv, hpc.of_pc_eq State.memWrite_pc⟩
  · exact h

theorem hostRun_inv {ops : List HostOp} (h : s.Inv) (hr : hostRun ops s = .next t) : t.Inv := by
  obtain ⟨u, hu, hi⟩ := hostRun_induction (fun _ _ _ _ => hostOp_inv) ops h
  cases hu.symm.trans hr
  exact hi

/-- Settles O42: part by part of the invariant, where the bound on `pc` needs that it is even. -/
theorem stepKeepsInvariant : Obligations.StepKeepsInvariant := fun _ _ => step_inv

/-- Settles O43: the memory is empty, no line is dirty and `pc` is 0. -/
theorem resetMeetsInvariant : Obligations.ResetMeetsInvariant := State.reset_inv

/-- Settles O44: operation by operation, and by induction over a sequence of them. -/
theorem everyOperationKeepsInvariant : Obligations.EveryOperationKeepsInvariant :=
  ⟨fun _ _ _ _ => hostOp_inv, fun _ _ _ => hostRun_inv⟩

end Sys2Proof.Machine

/-! ### Where a program can store (41_move.md rule R132) -/

namespace Sys2Proof.Machine

variable {s t u : State}

theorem movmAddr_toNat (fd : BitVec 4) : (movmAddr fd).toNat = fd.toNat := by
  have := fd.isLt
  simp only [movmAddr, BitVec.toNat_setWidth]
  omega

/-- The addresses that no MOVM of a word can name (decision D10). -/
def NotMovmAddress (a : Addr) : Prop := (1 ≤ a.toNat ∧ a.toNat ≤ 7) ∨ 16 ≤ a.toNat

/-- A MOVM that the decoder gives stores to 0 or to 8 to 15. -/
theorem ne_movmAddr {w : Word} {fd : BitVec 4} {imm8 : Byte} {a : Addr} (h : decodeWord w = .movm fd imm8)
    (ha : NotMovmAddress a) : a ≠ movmAddr fd := by
  rintro rfl
  have hwf := decodeWord_wf w
  have hfd : fd = 0 ∨ 8 ≤ fd.toNat := by simpa [h, Instr.wf] using hwf
  have := fd.isLt
  rw [NotMovmAddress, movmAddr_toNat] at ha
  rcases hfd with rfl | hfd
  · simp at ha
  · omega

/-- From `s` to `t` nothing was stored but at MOVM's addresses, and no line waits to be written back. -/
def State.OnlyMovmStores (s t : State) : Prop :=
  t.NoDirty ∧ ∀ a : Addr, NotMovmAddress a → t.mem.read a = s.mem.read a

theorem State.OnlyMovmStores.trans (h : s.OnlyMovmStores t) (h' : t.OnlyMovmStores u) : s.OnlyMovmStores u :=
  ⟨h'.1, fun a ha => (h'.2 a ha).trans (h.2 a ha)⟩

/-- With no dirty line the fetch of a step writes nothing back, so only its instruction can store. -/
theorem step_onlyMovmStores (h : s.NoDirty) (hs : step s = .next t) : s.OnlyMovmStores t := by
  refine ⟨fun i => ?_, fun a ha => ?_⟩
  · by_contra hd
    have := step_dirty hs (eq_true_of_ne_false hd)
    simp [h i] at this
  · have hf := fetch_mem_of_noDirty h
    rcases exec_mem hs with e | ⟨fd, imm8, hi, e⟩ <;> rw [e, hf]
    exact Memory.read_write_other _ _ (ne_movmAddr hi ha)

/-- Settles O39: a step keeps `OnlyMovmStores` from the start of the run, so by induction the whole run does. -/
theorem runStoresOnlyToMovmAddresses : Obligations.RunStoresOnlyToMovmAddresses := by
  intro n s t h hr
  have hstep (v v' : State) (hv : s.OnlyMovmStores v) (hs : step v = .next v') : s.OnlyMovmStores v' :=
    hv.trans (step_onlyMovmStores hv.1 hs)
  obtain ⟨u, hu, hstores⟩ := run_induction hstep n (s := s) ⟨h, fun _ _ => rfl⟩
  cases hu.symm.trans hr
  exact hstores

end Sys2Proof.Machine

/-! ### The arithmetic unit on numbers (40_alu.md rules R110 to R113) -/

namespace Sys2Proof.Machine

/-- The sign rule of addition: equal signs of the operands and another one of the byte, exactly when the sum of the
signed numbers does not fit in a byte. -/
theorem aluAdd_overflow_iff (a b : Byte) :
    (aluAdd a b).2.2 = true ↔ a.toInt + b.toInt < -128 ∨ 127 < a.toInt + b.toInt := by
  have := a.isLt
  have := b.isLt
  simp only [aluAdd, BitVec.msb_eq_decide, BitVec.toNat_ofNat, BitVec.toInt_eq_toNat_cond, Bool.and_eq_true,
    beq_iff_eq, bne_iff_ne, decide_eq_decide, ne_eq]
  split <;> split <;> omega

/-- The sign rule of subtraction. -/
theorem aluSub_overflow_iff (a b : Byte) :
    (aluSub a b).2.2 = true ↔ a.toInt - b.toInt < -128 ∨ 127 < a.toInt - b.toInt := by
  have := a.isLt
  have := b.isLt
  simp only [aluSub, BitVec.msb_eq_decide, BitVec.toNat_ofInt, BitVec.toInt_eq_toNat_cond, Bool.and_eq_true,
    bne_iff_ne, decide_eq_decide, ne_eq]
  split <;> split <;> omega

/-- The low byte of the signed product is that of the unsigned one. -/
theorem aluMul_result_toNat (a b : Byte) (cf : Bool) : (aluMul a b cf).1.toNat = a.toNat * b.toNat % 256 := by
  rw [aluMul, BitVec.ofInt_mul, BitVec.ofInt_toInt, BitVec.ofInt_toInt, BitVec.toNat_mul]

theorem aluMul_overflow_iff (a b : Byte) (cf : Bool) :
    (aluMul a b cf).2.2 = true ↔ a.toInt * b.toInt < -128 ∨ 127 < a.toInt * b.toInt := by
  simp [aluMul]

/-- Division rounded toward zero: the sign of the quotient apart from the quotient of the magnitudes. -/
theorem tdiv_eq_sign_mul_natAbs (n d : Int) :
    Int.tdiv n d = n.sign * d.sign * ((n.natAbs / d.natAbs : Nat) : Int) := by
  rw [← Int.sign_mul_natAbs (n.tdiv d), Int.sign_tdiv, Int.natAbs_tdiv]
  split
  · next h => simp [Nat.div_eq_of_lt h]
  · rfl

theorem aluDiv_zero (a : Byte) (cf : Bool) : aluDiv a 0 cf = (0, cf, true) := rfl

theorem aluDiv_result (a : Byte) {b : Byte} (cf : Bool) (hb : b ≠ 0) :
    (aluDiv a b cf).1 = BitVec.ofInt 8 (Int.tdiv a.toInt b.toInt) := by
  rw [tdiv_eq_sign_mul_natAbs, aluDiv, if_neg (show ¬ b = 0x00#8 from hb)]
  rfl

theorem aluDiv_carry (a b : Byte) (cf : Bool) : (aluDiv a b cf).2.1 = cf := by
  unfold aluDiv
  split <;> rfl

theorem aluDiv_overflow_iff (a b : Byte) (cf : Bool) :
    (aluDiv a b cf).2.2 = true ↔ b = 0 ∨ (a.toInt = -128 ∧ b.toInt = -1) := by
  have ha : a.toInt = -128 ↔ a = 0x80#8 := BitVec.toInt_inj (y := 0x80#8)
  have hb : b.toInt = -1 ↔ b = 0xFF#8 := BitVec.toInt_inj (y := 0xFF#8)
  rw [ha, hb, aluDiv]
  split
  · next h => simp [h]
  · next h => simp [h]

end Sys2Proof.Machine

/-! ### The instructions: results, flags, frames (40_alu.md, 41_move.md) -/

namespace Sys2Proof.Machine

section AluInstr

variable (op : Byte → Byte → Bool → AluOut) (fa fb : RegIndex) (s : State)

/-! The shared form of the ALU instructions (rule R118): the ALU's answer in `x[7]` and the flags, and the frame. -/

theorem aluInstr_dest : (aluInstr op fa fb s).readReg 7#4 = (op (s.readReg fa) (s.readReg fb) s.CF).1 := by
  simp [aluInstr]

theorem aluInstr_CF : (aluInstr op fa fb s).CF = (op (s.readReg fa) (s.readReg fb) s.CF).2.1 := rfl

theorem aluInstr_OF : (aluInstr op fa fb s).OF = (op (s.readReg fa) (s.readReg fb) s.CF).2.2 := rfl

theorem aluInstr_pc : (aluInstr op fa fb s).pc = s.pc + 2#17 := by simp [aluInstr]

/-- Every register but `x[7]`, the cache and memory stay; stated with `pc`, as the instructions' statements are. -/
theorem aluInstr_frame :
    (aluInstr op fa fb s).pc = s.pc + 2#17 ∧
      (∀ i : RegIndex, i ≠ 7#4 → (aluInstr op fa fb s).readReg i = s.readReg i) ∧
      (aluInstr op fa fb s).cache = s.cache ∧ ∀ a : Addr, (aluInstr op fa fb s).mem.read a = s.mem.read a :=
  ⟨aluInstr_pc op fa fb s, fun _ hi => State.writeAluOut_other s _ hi, by simp [aluInstr], fun _ => by simp [aluInstr]⟩

end AluInstr

/-- Settles O6: the frame is the ALU instructions' shared one, the result and the carry are the adder's exact sum,
the overflow its sign rule. -/
theorem addResultFlagsFrame : Obligations.AddResultFlagsFrame := by
  intro fa fb fmt s
  refine ⟨_, rfl, ?_, ?_, ?_, aluInstr_frame _ fa fb s⟩
  · rw [aluInstr_dest, aluAdd, BitVec.toNat_ofNat]
  · rw [aluInstr_CF, aluAdd, decide_eq_true_iff]
  · rw [aluInstr_OF, aluAdd_overflow_iff]

/-- Settles O7: as for ADD, with the exact difference, narrowed, and the borrow. -/
theorem subResultFlagsFrame : Obligations.SubResultFlagsFrame := by
  intro fa fb fmt s
  refine ⟨_, rfl, ?_, ?_, ?_, aluInstr_frame _ fa fb s⟩
  · rw [aluInstr_dest, aluSub, BitVec.toNat_ofInt]
    exact Int.toNat_of_nonneg (Int.emod_nonneg _ (by decide))
  · rw [aluInstr_CF, aluSub, decide_eq_true_iff]
  · rw [aluInstr_OF, aluSub_overflow_iff]

/-- Settles O8: the multiplier's low byte is the same for both readings of the operands, and it hands the old carry
back. -/
theorem mulResultFlagsFrame : Obligations.MulResultFlagsFrame := by
  intro fa fb fmt s
  refine ⟨_, rfl, ?_, rfl, ?_, aluInstr_frame _ fa fb s⟩
  · rw [aluInstr_dest, aluMul_result_toNat]
  · rw [aluInstr_OF, aluMul_overflow_iff]

/-- Settles O9: the divider's two branches, whose quotient of signs and magnitudes is the division rounded toward
zero. -/
theorem divResultFlagsFrame : Obligations.DivResultFlagsFrame := by
  intro fa fb fmt s
  refine ⟨_, rfl, fun h => ?_, fun h => ?_, ?_, ?_, aluInstr_frame _ fa fb s⟩
  · rw [aluInstr_dest, h, aluDiv_zero]
  · rw [aluInstr_dest, aluDiv_result _ _ h]
  · rw [aluInstr_CF, aluDiv_carry]
  · rw [aluInstr_OF, aluDiv_overflow_iff]

/-- The indices that select no register (rule R164). -/
theorem isRegister_eq_false_iff {i : RegIndex} : isRegister i = false ↔ i = 0 ∨ 8 ≤ i.toNat := by
  revert i
  decide

theorem isRegister_eq_true_iff {i : RegIndex} : isRegister i = true ↔ 1 ≤ i.toNat ∧ i.toNat ≤ 7 := by
  rw [isRegister, Bool.and_eq_true, decide_eq_true_eq, decide_eq_true_eq]

/-- Settles O10: the divider's zero branch; an index that selects no register reads the zero. -/
theorem divisionByZeroSetsOverflow : Obligations.DivisionByZeroSetsOverflow := by
  refine ⟨fun fa fb fmt s h => ⟨_, rfl, ?_, ?_, ?_, aluInstr_pc _ fa fb s⟩,
    fun fb s h => s.readReg_invalid (isRegister_eq_false_iff.mpr h)⟩
  · rw [aluInstr_dest, h, aluDiv_zero]
  · rw [aluInstr_OF, h, aluDiv_zero]
  · rw [aluInstr_CF, h, aluDiv_zero]

/-- Settles O11: MOVI is one write through the register port, so the port's laws say it all. -/
theorem moviResultFrame : Obligations.MoviResultFrame := by
  intro fd imm8 s
  refine ⟨_, rfl, fun hlo hhi => ?_, fun i hi => ?_, fun hfd i => ?_, ?_⟩
  · exact s.readReg_writeReg_same imm8 (isRegister_eq_true_iff.mpr ⟨hlo, hhi⟩)
  · exact s.readReg_writeReg_other imm8 hi
  · rw [s.writeReg_invalid imm8 (isRegister_eq_false_iff.mpr hfd), State.advancePc_readReg]
  · simp

/-- Settles O12: MOVM is one write to the backing store, so the store's laws say it all. -/
theorem movmStoreFrame : Obligations.MovmStoreFrame := fun fd imm8 _ =>
  ⟨_, rfl, movmAddr_toNat fd, fun hm => Memory.read_write_same hm _ imm8,
    fun _ ha => Memory.read_write_other _ imm8 ha, rfl, fun _ => rfl, rfl, rfl, rfl⟩

/-- Settles O13: SKIP by definition; a word of opcode 5 to 15 decodes to SKIP, the zero word to HALT0. -/
theorem unrecognizedOpcodeIsSkipped : Obligations.UnrecognizedOpcodeIsSkipped := by
  refine ⟨fun _ _ _ => rfl, fun w s h => ?_, fun _ => rfl⟩
  rw [decodeWord_skip (by rwa [opField_toNat])]
  rfl

/-- A step that fetches the zero word does no more than its fetch (rule R145). -/
theorem step_zeroWord {s : State} (h : (fetch s).1 = 0) : step s = .next (fetch s).2 := by rw [step, h]; rfl

/-- Settles O14: HALT0 answers its state, and the fetch keeps `pc`. -/
theorem zeroWordHaltsInPlace : Obligations.ZeroWordHaltsInPlace :=
  ⟨fun _ => rfl, fun s h => ⟨step_zeroWord h, fetch_pc s⟩⟩

end Sys2Proof.Machine

/-! ### The register file: ports and writers (10_state.md sections 2 to 4) -/

namespace Sys2Proof.Machine

variable {s t : State} {v : Byte}

/-- The host's port index 1 to 7 selects the instruction's register of that number (rule R187). -/
theorem isPortIndex_eq_true_iff {i : Int} : isPortIndex i = true ↔ 1 ≤ i ∧ i ≤ 7 := by
  rw [isPortIndex, Bool.and_eq_true, decide_eq_true_eq, decide_eq_true_eq]

theorem isPortIndex_eq_false_iff {i : Int} : isPortIndex i = false ↔ i ≤ 0 ∨ 8 ≤ i := by
  rw [← Bool.not_eq_true, isPortIndex_eq_true_iff]
  omega

/-- A port index is the number of the register index it is cut to. -/
theorem toNat_ofInt_of_isPortIndex {i : Int} (h : isPortIndex i = true) : ((BitVec.ofInt 4 i).toNat : Int) = i := by
  rw [isPortIndex_eq_true_iff] at h
  rw [BitVec.toNat_ofInt]
  omega

theorem isRegister_of_isPortIndex {i : Int} (h : isPortIndex i = true) : isRegister (BitVec.ofInt 4 i) = true := by
  have e := toNat_ofInt_of_isPortIndex h
  rw [isPortIndex_eq_true_iff] at h
  rw [isRegister_eq_true_iff]
  omega

theorem State.regGet_invalid {i : Int} (h : isPortIndex i = false) (s : State) : s.regGet i = 0 := by
  simp [State.regGet, h]

theorem State.regSet_invalid {i : Int} (h : isPortIndex i = false) (v : Byte) (s : State) : s.regSet i v = s := by
  simp [State.regSet, h]

theorem State.regGet_valid {i : Int} (h : isPortIndex i = true) (s : State) :
    s.regGet i = s.readReg (BitVec.ofInt 4 i) := by
  simp [State.regGet, h]

theorem State.regSet_valid {i : Int} (h : isPortIndex i = true) (v : Byte) (s : State) :
    s.regSet i v = s.writeReg (BitVec.ofInt 4 i) v := by
  simp [State.regSet, h]

theorem State.regGet_regSet_same {i : Int} (h : isPortIndex i = true) : (s.regSet i v).regGet i = v := by
  rw [State.regSet_valid h, State.regGet_valid h, State.readReg_writeReg_same _ _ (isRegister_of_isPortIndex h)]

theorem State.regGet_regSet_other {i j : Int} (hij : j ≠ i) : (s.regSet i v).regGet j = s.regGet j := by
  cases hi : isPortIndex i
  · rw [State.regSet_invalid hi]
  · cases hj : isPortIndex j
    · rw [State.regGet_invalid hj, State.regGet_invalid hj]
    · rw [State.regSet_valid hi, State.regGet_valid hj, State.regGet_valid hj, State.readReg_writeReg_other]
      intro e
      have ei := toNat_ofInt_of_isPortIndex hi
      have ej := toNat_ofInt_of_isPortIndex hj
      rw [e, ei] at ej
      exact hij ej.symm

/-- Settles O17: on 1 to 7 the host's ports are the instruction's ports, on every other integer they do nothing. -/
theorem hostRegisterPorts : Obligations.HostRegisterPorts := by
  intro i v s
  refine ⟨rfl, rfl, fun k hlo hhi => ?ports, fun hlo hhi => State.regGet_regSet_same ?range,
    fun j => State.regGet_regSet_other, fun h => ?invalid, State.regSet_pc, State.regSet_CF, State.regSet_OF,
    State.regSet_cache, State.regSet_mem⟩
  case ports =>
    have hk : isPortIndex k.toNat = true := isPortIndex_eq_true_iff.mpr (by omega)
    have hcut : BitVec.ofInt 4 k.toNat = k := by rw [BitVec.ofInt_natCast, BitVec.ofNat_toNat, BitVec.setWidth_eq]
    rw [State.regGet_valid hk, State.regSet_valid hk, hcut]
    exact ⟨rfl, rfl⟩
  case range => exact isPortIndex_eq_true_iff.mpr ⟨hlo, hhi⟩
  case invalid =>
    have hi := isPortIndex_eq_false_iff.mpr h
    exact ⟨State.regGet_invalid hi s, State.regSet_invalid hi v s⟩

/-- An ALU instruction sees of its source fields only what the read port gives for them. -/
theorem aluInstr_congr (op : Byte → Byte → Bool → AluOut) {fa fa' fb fb' : RegIndex}
    (ha : s.readReg fa = s.readReg fa') (hb : s.readReg fb = s.readReg fb') :
    aluInstr op fa fb s = aluInstr op fa' fb' s := by
  rw [aluInstr, ha, hb, aluInstr]

/-- Settles O15: the ports' laws for an index that selects no register; the ALU instructions read their operands
through the port; and the decoder gives MOVI for a field of 1 to 7 only. -/
theorem invalidRegisterIndexReadsZero : Obligations.InvalidRegisterIndexReadsZero := by
  refine ⟨fun i v s h => ?port, fun i v s h => ?hostPort, fun i fb fmt s h => ?operand, fun w fd imm8 h => ?movi⟩
  case port =>
    have hi := isRegister_eq_false_iff.mpr h
    exact ⟨s.readReg_invalid hi, s.writeReg_invalid v hi⟩
  case hostPort =>
    have hi := isPortIndex_eq_false_iff.mpr h
    exact ⟨State.regGet_invalid hi s, State.regSet_invalid hi v s⟩
  case operand =>
    have hread : s.readReg i = s.readReg 0 := by
      rw [s.readReg_invalid (isRegister_eq_false_iff.mpr h), s.readReg_invalid (by decide)]
    have left (op : Byte → Byte → Bool → AluOut) := aluInstr_congr op hread (rfl : s.readReg fb = s.readReg fb)
    have right (op : Byte → Byte → Bool → AluOut) := aluInstr_congr op (rfl : s.readReg fb = s.readReg fb) hread
    simp only [exec, execAdd, execSub, execMul, execDiv, left, right, and_self]
  case movi =>
    have hwf := decodeWord_wf w
    simpa [h, Instr.wf] using hwf

/-- The instruction is one of the four of the arithmetic unit. -/
def IsAlu (i : Instr) : Prop :=
  ∃ fa fb fmt, i = .add fa fb fmt ∨ i = .sub fa fb fmt ∨ i = .mul fa fb fmt ∨ i = .div fa fb fmt

/-- The instruction is ADD or SUB, the two that write the carry. -/
def IsAddSub (i : Instr) : Prop := ∃ fa fb fmt, i = .add fa fb fmt ∨ i = .sub fa fb fmt

/-- The only register that the ALU's write-back can change is `x[7]`. -/
theorem State.eq_aluDest_of_writeAluOut {out : AluOut} {k : RegIndex}
    (h : (s.writeAluOut out).advancePc.readReg k ≠ s.readReg k) : k = 7#4 := by
  by_contra hk
  exact h (s.writeAluOut_other out hk)

/-- The only register that the write port can change is the one it names, which then holds the value. -/
theorem State.eq_of_writeReg {i k : RegIndex} (h : (s.writeReg i v).readReg k ≠ s.readReg k) :
    k = i ∧ (s.writeReg i v).readReg k = v := by
  have hk : k = i := by
    by_contra hk
    exact h (s.readReg_writeReg_other v hk)
  subst hk
  cases hreg : isRegister k
  · rw [s.writeReg_invalid v hreg] at h
    exact absurd rfl h
  · exact ⟨rfl, s.readReg_writeReg_same v hreg⟩

/-- A register that an instruction changes is `x[7]` by an ALU instruction or MOVI's own (rule R12). -/
theorem exec_readReg_ne {i : Instr} {k : RegIndex} (h : exec i s = .next t) (hne : t.readReg k ≠ s.readReg k) :
    (k = 7#4 ∧ IsAlu i) ∨ ∃ imm8, i = .movi k imm8 ∧ t.readReg k = imm8 := by
  obtain ⟨u, hu, _, hcases⟩ := exec_cases i s
  cases hu.symm.trans h
  rcases hcases with ⟨_, rfl⟩ | ⟨_, _, _, rfl⟩ | ⟨fd, imm8, rfl, rfl⟩ | ⟨_, _, _, rfl⟩ | ⟨fa, fb, fmt, rfl, rfl⟩ |
    ⟨fa, fb, fmt, rfl, rfl⟩ | ⟨fa, fb, fmt, rfl, rfl⟩ | ⟨fa, fb, fmt, rfl, rfl⟩
  · exact absurd rfl hne
  · exact absurd rfl hne
  · obtain ⟨rfl, hv⟩ := State.eq_of_writeReg hne
    exact .inr ⟨imm8, rfl, hv⟩
  · exact absurd rfl hne
  all_goals exact .inl ⟨State.eq_aluDest_of_writeAluOut hne, fa, fb, fmt, by simp⟩

/-- An instruction that changes the carry is ADD or SUB: the multiplier and the divider hand it back (rule R16). -/
theorem exec_CF_ne {i : Instr} (h : exec i s = .next t) (hne : t.CF ≠ s.CF) : IsAddSub i := by
  obtain ⟨u, hu, _, hcases⟩ := exec_cases i s
  cases hu.symm.trans h
  rcases hcases with ⟨_, rfl⟩ | ⟨_, _, _, rfl⟩ | ⟨_, _, _, rfl⟩ | ⟨_, _, _, rfl⟩ | ⟨fa, fb, fmt, rfl, _⟩ |
    ⟨fa, fb, fmt, rfl, _⟩ | ⟨_, _, _, _, rfl⟩ | ⟨_, _, _, _, rfl⟩
  · exact absurd rfl hne
  · exact absurd rfl hne
  · exact absurd (s.writeReg_CF _ _) hne
  · exact absurd rfl hne
  · exact ⟨fa, fb, fmt, .inl rfl⟩
  · exact ⟨fa, fb, fmt, .inr rfl⟩
  · exact absurd rfl hne
  · exact absurd (aluDiv_carry _ _ _) hne

/-- An instruction that changes the overflow flag is one of the arithmetic unit (rule R16). -/
theorem exec_OF_ne {i : Instr} (h : exec i s = .next t) (hne : t.OF ≠ s.OF) : IsAlu i := by
  obtain ⟨u, hu, _, hcases⟩ := exec_cases i s
  cases hu.symm.trans h
  rcases hcases with ⟨_, rfl⟩ | ⟨_, _, _, rfl⟩ | ⟨_, _, _, rfl⟩ | ⟨_, _, _, rfl⟩ | ⟨fa, fb, fmt, rfl, _⟩ |
    ⟨fa, fb, fmt, rfl, _⟩ | ⟨fa, fb, fmt, rfl, _⟩ | ⟨fa, fb, fmt, rfl, _⟩
  · exact absurd rfl hne
  · exact absurd rfl hne
  · exact absurd (s.writeReg_OF _ _) hne
  · exact absurd rfl hne
  all_goals exact ⟨fa, fb, fmt, by simp⟩

/-- Of the host's operations only `init`, `reset`, a step and a run touch `pc` and the flags, and these and
`reg_set` the registers (rule R180). -/
theorem hostOp_registerFile {op : HostOp} {ans : HostAnswer} (ho : hostOp op s = .next (t, ans)) (hinit : op ≠ .init)
    (hreset : op ≠ .reset) (hstep : op ≠ .step) (hrun : ∀ n, op ≠ .run n) :
    t.pc = s.pc ∧ t.CF = s.CF ∧ t.OF = s.OF ∧ ((∀ k v, op ≠ .regSet k v) → t.regs = s.regs) := by
  rcases hostOp_cases ho with ⟨e, _⟩ | ⟨e, _⟩ | ⟨l, _, rfl⟩ | ⟨e, _⟩ | ⟨n, e, _⟩ | ⟨_, rfl⟩ | ⟨k, v, e, rfl⟩ |
    ⟨a, _, rfl⟩ | ⟨a, v, _, rfl⟩ | ⟨_, rfl⟩
  · exact absurd e hinit
  · exact absurd e hreset
  · simp
  · exact absurd e hstep
  · exact absurd e (hrun n)
  · simp
  · simp [e]
  · simp
  · simp
  · simp

/-- `init` and `reset` zero the register file (rules R181, R182). -/
theorem hostOp_init_or_reset {op : HostOp} {ans : HostAnswer} (ho : hostOp op s = .next (t, ans))
    (hop : op = .init ∨ op = .reset) :
    t.pc = 0 ∧ t.CF = false ∧ t.OF = false ∧ ∀ i : RegIndex, t.readReg i = 0 := by
  rcases hop with rfl | rfl <;> cases ho
  · exact ⟨rfl, rfl, rfl, State.reset.hostReset_readReg⟩
  · exact ⟨rfl, rfl, rfl, s.hostReset_readReg⟩

/-- The only register that `reg_set` can change is the one its index names. -/
theorem State.eq_of_regSet {k : Int} {i : RegIndex} (h : (s.regSet k v).readReg i ≠ s.readReg i) :
    (i.toNat : Int) = k ∧ (s.regSet k v).readReg i = v := by
  cases hk : isPortIndex k
  · rw [State.regSet_invalid hk] at h
    exact absurd rfl h
  · rw [State.regSet_valid hk] at h ⊢
    obtain ⟨rfl, hv⟩ := State.eq_of_writeReg h
    exact ⟨toNat_ofInt_of_isPortIndex hk, hv⟩

/-- Settles O16: the write port's laws; in a step the fetch leaves the registers, so the instruction is the writer;
and the host's operations one by one. -/
theorem registerWriters : Obligations.RegisterWriters := by
  refine ⟨fun s i j v => ?port, fun s i v h => s.writeReg_invalid v (isRegister_eq_false_iff.mpr h),
    fun s t i hs hne => ?step, fun op s t ans ho => ⟨fun hop => ?zeroed, ?regSet, ?others⟩⟩
  case port =>
    split
    · next h =>
      obtain ⟨rfl, hi⟩ := h
      exact s.readReg_writeReg_same v (isRegister_eq_true_iff.mpr hi)
    · next h =>
      by_contra hne
      obtain ⟨rfl, _⟩ := State.eq_of_writeReg hne
      have hreg : isRegister j = false := by
        rw [← Bool.not_eq_true, isRegister_eq_true_iff]
        exact fun hj => h ⟨rfl, hj⟩
      exact hne (by rw [s.writeReg_invalid v hreg])
  case step => exact exec_readReg_ne hs (by rwa [fetch_readReg])
  case zeroed =>
    obtain ⟨_, _, _, hregs⟩ := hostOp_init_or_reset ho hop
    exact hregs
  case regSet =>
    rintro k v rfl i hne
    cases ho
    exact State.eq_of_regSet hne
  case others =>
    intro hinit hreset hstep hrun hset i
    obtain ⟨_, _, _, hregs⟩ := hostOp_registerFile ho hinit hreset hstep hrun
    rw [State.readReg, hregs hset, State.readReg]

/-- Settles O18: as for the registers, the fetch leaves the flags and the instruction is their writer. -/
theorem flagWriters : Obligations.FlagWriters := by
  refine ⟨fun s t hs => ⟨fun hne => exec_CF_ne hs (by rwa [fetch_CF]), fun hne => exec_OF_ne hs (by rwa [fetch_OF])⟩,
    fun op s t ans ho => ⟨fun hop => ?_, fun hinit hreset hstep hrun => ?_⟩⟩
  · obtain ⟨_, hc, hov, _⟩ := hostOp_init_or_reset ho hop
    exact ⟨hc, hov⟩
  · obtain ⟨_, hc, hov, _⟩ := hostOp_registerFile ho hinit hreset hstep hrun
    exact ⟨hc, hov⟩

end Sys2Proof.Machine

/-! ### Lines and addresses, reads, evictions and the view (20_memory.md sections 1 to 4) -/

namespace Sys2Proof.Machine

variable {size : Nat} {s t : State} {a b : Addr} {i j : LineIndex} {v w : Byte}

/-- An address is made of its tag and its index (rule R40). -/
theorem eq_of_tagOf_indexOf (hi : indexOf a = indexOf b) (ht : tagOf a = tagOf b) : a = b := by
  rw [← lineAddr_tagOf_indexOf a, hi, ht, lineAddr_tagOf_indexOf]

theorem State.hit_iff : s.hit a = true ↔ (s.line (indexOf a)).valid = true ∧ (s.line (indexOf a)).tag = tagOf a := by
  rw [State.hit, Bool.and_eq_true, beq_iff_eq]

/-- Settles O20: tag and index together are the address, so the one tag a line holds lets one address hit. -/
theorem lineHitsOneAddress : Obligations.LineHitsOneAddress := by
  refine ⟨fun a b => eq_of_tagOf_indexOf, fun s a => ?_, fun s a b ha hb hi => ?_⟩
  · rw [State.hit_iff]
    refine and_congr_right fun _ => ⟨fun h => ?_, fun h => ?_⟩
    · rw [h, lineAddr_tagOf_indexOf]
    · have htag := tagOf_lineAddr (s.line (indexOf a)).tag (indexOf a)
      rw [h] at htag
      exact htag.symm
  · obtain ⟨_, hta⟩ := State.hit_iff.mp ha
    obtain ⟨_, htb⟩ := State.hit_iff.mp hb
    exact eq_of_tagOf_indexOf hi (by rw [← hta, hi, htb])

/-- Adding an offset to an aligned base does not leave the base's group of four lines. -/
theorem indexOf_alignedBase_add (a : Addr) (o : Offset) :
    (indexOf (alignedBase a + o.setWidth 16)).toNat = (indexOf (alignedBase a)).toNat + o.toNat := by
  have := o.isLt
  rw [indexOf_toNat, indexOf_toNat, alignedBase_add_toNat, alignedBase_toNat]
  omega

/-- Settles O21: tag and base are laws of the address decoder; the indices differ as the offsets do. -/
theorem blockHasFourAliasLines : Obligations.BlockHasFourAliasLines := by
  intro a o p
  refine ⟨tagOf_alignedBase_add a o, alignedBase_alignedBase_add a o, indexOf_alignedBase_add a o, fun hne h => hne ?_⟩
  have h := congrArg BitVec.toNat h
  rw [indexOf_alignedBase_add, indexOf_alignedBase_add] at h
  exact BitVec.eq_of_toNat_eq (by omega)

theorem State.makeResident_of_miss (h : s.hit a = false) : s.makeResident size a = s.miss size a := by
  simp [State.makeResident, h]

/-- The block that a miss fills is the aligned block of `mem`: the write-back before it cannot touch it. -/
theorem State.miss_line_byteAt (h : s.hit a = false) (o : Offset) :
    ((s.miss Config.memSize a).line (indexOf a)).block.byteAt o = s.mem.read (alignedBase a + o.setWidth 16) := by
  rw [State.miss_line, fillBlock, if_pos (alignedBase_bound a), Memory.readBlock_byteAt,
    State.miss_read_sameTag h (tagOf_alignedBase_add a o)]

theorem State.evict_of_not_dirty (h : (s.line i).valid = false ∨ (s.line i).dirty = false) : s.evict size i = s := by
  rcases h with h | h
  · simp [State.evict, h]
  · exact State.evict_clean h

theorem State.cacheRead_snd : (s.cacheRead size a).2 = s.makeResident size a := rfl

theorem State.cacheRead_fst : (s.cacheRead Config.memSize a).1 = s.view a := State.makeResident_lineByte

theorem State.view_of_hit (h : s.hit a = true) : s.view a = s.lineByte a := by rw [State.view, if_pos h]

theorem State.view_of_miss (h : s.hit a = false) : s.view a = s.mem.read a := by simp [State.view, h]

/-- Settles O22: a read is the residence that an access makes; on a hit that is nothing, on a miss it is the old
line's eviction and the fill. -/
theorem cacheReadHitAndMiss : Obligations.CacheReadHitAndMiss := by
  intro s a
  refine ⟨fun h => ?hit, fun h => ?miss, ?frame⟩
  case hit => rw [State.cacheRead, State.makeResident_of_hit h]
  case frame => simp [State.cacheRead_snd]
  case miss =>
    rw [State.cacheRead_fst, State.view_of_miss h, State.cacheRead_snd, State.makeResident_of_miss h, State.miss_mem]
    refine ⟨rfl, by rw [State.miss_line], by rw [State.miss_line], by rw [State.miss_line],
      State.miss_line_byteAt h, fun i => State.miss_line_other, fun hc => by rw [State.evict_of_not_dirty hc],
      fun hv hd hm => ⟨State.evict_read_block hm hv hd, fun b hb => State.evict_read_other fun _ _ => hb⟩⟩

/-- Settles O24: the bounds tests of the two ports; an address has 16 bits, and the fetch of a running state reads at
most 65535. -/
theorem outOfBoundsDegrades : Obligations.OutOfBoundsDegrades := by
  refine ⟨fun size a v s => ⟨fun h => ?above, fun h => ?below⟩, fun a => a.isLt, fun s h => ?fetch⟩
  case above => exact ⟨if_pos h, if_pos h⟩
  case below => exact ⟨if_neg (Nat.not_le.mpr h), if_neg (Nat.not_le.mpr h)⟩
  case fetch =>
    rw [State.not_terminal_iff] at h
    rw [memSize_eq]
    omega

/-! ### Blocks past the end of the store (60_exceptions.md rule R162) -/

theorem State.writeBack_of_overrun (h : size < (writeBackBase (s.line i).tag i).toNat + 4) :
    s.writeBack size i = s := by
  simp [State.writeBack, Nat.not_le.mpr h]

theorem State.evict_of_overrun (h : size < (writeBackBase (s.line i).tag i).toNat + 4) : s.evict size i = s := by
  simp [State.evict, State.writeBack_of_overrun h]

/-- What an eviction leaves in memory depends on the line and on memory only. -/
theorem State.evict_mem_congr (hl : s.line i = t.line i) (hm : s.mem = t.mem) :
    (s.evict size i).mem = (t.evict size i).mem := by
  simp only [State.evict, State.writeBack, hl]
  split
  · split
    · simp only [hm]
    · exact hm
  · exact hm

/-- A line whose block lies past the end drains as if it were clean. -/
theorem State.drain_mem_of_overrun (n : Nat) (h : size < (writeBackBase (s.line i).tag i).toNat + 4) :
    (s.drain size n).mem = ((s.setLine i { s.line i with dirty := false }).drain size n).mem := by
  induction n with
  | zero => rfl
  | succ n ih =>
    rw [State.drain, State.drain]
    by_cases hi : BitVec.ofNat 6 n = i
    · rw [hi, State.evict_of_overrun (by simpa using h), State.evict_clean (by simp), ih]
    · exact State.evict_mem_congr (by simp [State.line_setLine_other _ _ hi]) ih

/-- Settles O25: the bounds tests of the fill and of the write-back, and for the flush an induction over the lines
drained; an aligned block of 16-bit addresses ends at 65535. -/
theorem cacheBoundaryOverrunDegrades : Obligations.CacheBoundaryOverrunDegrades := by
  refine ⟨fun size a s h => ?fill, fun _ _ _ => State.writeBack_of_overrun, fun size a s h => ?refill,
    fun size i s h => ⟨?flush, by simp, by simp⟩, alignedBase_bound⟩
  case fill => rw [State.miss_line, fillBlock, if_neg (Nat.not_le.mpr h)]
  case refill => rw [State.miss_mem, State.evict_of_overrun h]
  case flush => rw [State.cacheFlush_mem, State.cacheFlush_mem, State.drain_mem_of_overrun 64 h]

/-! ### The view (20_memory.md section 4) -/

/-- Making an address resident leaves its view. -/
theorem State.makeResident_view_same : (s.makeResident Config.memSize a).view a = s.view a := by
  rw [State.view_of_hit State.makeResident_hit, State.makeResident_lineByte]

theorem State.memRead_toNat : s.memRead Config.memSize a.toNat = s.cacheRead Config.memSize a := by
  rw [State.memRead_of_lt (show a.toNat < Config.memSize from a.isLt), BitVec.ofNat_toNat, BitVec.setWidth_eq,
    State.cacheRead]

theorem State.memWrite_toNat : s.memWrite Config.memSize a.toNat v = s.cacheWrite Config.memSize a v := by
  rw [State.memWrite_of_lt (show a.toNat < Config.memSize from a.isLt), BitVec.ofNat_toNat, BitVec.setWidth_eq]

/-- Settles O26: a read's byte is the view before it, and a write's line shows the value. -/
theorem readReturnsView : Obligations.ReadReturnsView := by
  intro s a v
  rw [State.memRead_toNat, State.memRead_toNat, State.memWrite_toNat]
  exact ⟨State.cacheRead_fst, State.makeResident_view_same, State.cacheWrite_view,
    State.cacheRead_fst.trans State.cacheWrite_view⟩

/-- After a cache write to `a`, an access that needs the line for another address puts `a`'s block into `mem`. -/
theorem State.cacheWrite_cacheWrite_read (hm : s.mem.wf = true) (hi : indexOf b = indexOf a) (ht : tagOf b ≠ tagOf a)
    (o : Offset) :
    ((s.cacheWrite Config.memSize a v).cacheWrite Config.memSize b w).mem.read (alignedBase a + o.setWidth 16)
      = ((s.cacheWrite Config.memSize a v).line (indexOf a)).block.byteAt o := by
  obtain ⟨hvalid, hdirty⟩ := State.cacheWrite_line_valid_dirty Config.memSize s a v
  obtain ⟨_, htag⟩ := State.hit_iff.mp (State.cacheWrite_hit (size := Config.memSize) (s := s) (a := a) (v := v))
  have hmiss : (s.cacheWrite Config.memSize a v).hit b = false := by
    rw [← Bool.not_eq_true, State.hit_iff, hi, htag]
    exact fun h => ht h.2.symm
  have hblock := State.evict_read_block (State.cacheWrite_wf hm) hvalid hdirty o
  rw [htag, writeBackBase_tagOf_indexOf] at hblock
  rw [State.cacheWrite_mem, State.cacheRead_snd, State.makeResident_of_miss hmiss, State.miss_mem, hi, hblock]

/-- Settles O27: the second write misses and evicts the first one's line, which holds `v` at `a`. -/
theorem evictionWritesBack : Obligations.EvictionWritesBack := by
  intro s a b v w hm hi ht
  have hread := State.cacheWrite_cacheWrite_read (v := v) (w := w) hm hi ht
  refine ⟨?_, hread⟩
  have ha := hread (offsetOf a)
  rw [alignedBase_add_offsetOf] at ha
  rw [ha]
  exact State.cacheWrite_lineByte

/-! ### The flush (20_memory.md rule R48) -/

/-- Draining the lines below `n` leaves a byte that lies in no block of a dirty one of them. -/
theorem State.drain_read_other {n : Nat}
    (h : ∀ i : LineIndex, i.toNat < n → (s.line i).valid = true → (s.line i).dirty = true →
      writeBackBase (s.line i).tag i ≠ alignedBase a) (hn : n ≤ 64) :
    (s.drain Config.memSize n).mem.read a = s.mem.read a := by
  induction n with
  | zero => rfl
  | succ n ih =>
    have hlast : (BitVec.ofNat 6 n).toNat = n := by rw [BitVec.toNat_ofNat]; omega
    rw [State.drain, State.evict_read_other, ih (fun i hi => h i (by omega)) (by omega)]
    simp only [State.drain_line]
    exact fun hv hd => (h _ (by omega) hv hd).symm

/-- Draining puts a dirty line's block into `mem`, unless a line drained later holds the same block. -/
theorem State.drain_read_block {n : Nat} (hm : s.mem.wf = true) (hv : (s.line i).valid = true)
    (hd : (s.line i).dirty = true)
    (hlater : ∀ j : LineIndex, i.toNat < j.toNat → (s.line j).valid = true → (s.line j).dirty = true →
      writeBackBase (s.line j).tag j ≠ writeBackBase (s.line i).tag i) (o : Offset) (hi : i.toNat < n) (hn : n ≤ 64) :
    (s.drain Config.memSize n).mem.read (writeBackBase (s.line i).tag i + o.setWidth 16)
      = (s.line i).block.byteAt o := by
  induction n with
  | zero => omega
  | succ n ih =>
    have hlast : (BitVec.ofNat 6 n).toNat = n := by rw [BitVec.toNat_ofNat]; omega
    rw [State.drain]
    by_cases hin : i.toNat = n
    · have e : BitVec.ofNat 6 n = i := BitVec.eq_of_toNat_eq (by rw [hlast, hin])
      have hblock := State.evict_read_block (s := s.drain Config.memSize n) (i := i) (State.drain_wf hm)
        (by simpa using hv) (by simpa using hd) o
      simpa [e] using hblock
    · rw [State.evict_read_other, ih (by omega) (by omega)]
      simp only [State.drain_line]
      rw [writeBackBase, alignedBase_alignedBase_add]
      exact fun hvj hdj => (hlater _ (by omega) hvj hdj).symm

/-- Settles O28: the lines and the registers by the laws of the flush, the memory by induction over the lines in the
order they are drained. -/
theorem flushDrainsDirtyLines : Obligations.FlushDrainsDirtyLines := by
  intro s hm
  rw [State.cacheFlush_mem]
  refine ⟨fun i => State.cacheFlush_line, fun i hv hd hlater o => ?_, fun a h => ?_, fun a => ?_,
    State.cacheFlush_pc, State.cacheFlush_regs, State.cacheFlush_CF, State.cacheFlush_OF⟩
  · exact State.drain_read_block hm hv hd hlater o i.isLt le_rfl
  · exact State.drain_read_other (fun i _ => h i) le_rfl
  · rw [State.view_of_miss (by simp [State.hit]), State.cacheFlush_mem]

/-! ### A store past the cache (20_memory.md rules R55, R57) -/

@[simp] theorem State.backingWrite_hit : (s.backingWrite a v).hit b = s.hit b := rfl
@[simp] theorem State.backingWrite_lineByte : (s.backingWrite a v).lineByte b = s.lineByte b := rfl
@[simp] theorem State.advancePc_view : s.advancePc.view a = s.view a := rfl

/-- A resident address keeps the line's byte; any other shows `mem`'s. -/
theorem State.backingWrite_view (hm : s.mem.wf = true) :
    (s.backingWrite a v).view b = if b = a ∧ s.hit b = false then v else s.view b := by
  cases hh : s.hit b
  · rw [State.view_of_miss (by simpa using hh), State.view_of_miss hh, State.backingWrite_mem]
    by_cases hb : b = a
    · rw [if_pos ⟨hb, rfl⟩, hb, Memory.read_write_same hm]
    · rw [if_neg (fun h => hb h.1), Memory.read_write_other _ _ hb]
  · rw [State.view_of_hit (by simpa using hh), State.view_of_hit hh, if_neg (by simp), State.backingWrite_lineByte]

/-- Settles O29: MOVM is a store past the cache and `pc + 2`. -/
theorem directStoreSeenIffNotResident : Obligations.DirectStoreSeenIffNotResident := by
  intro fd imm8 s hm
  refine ⟨(s.backingWrite (movmAddr fd) imm8).advancePc, rfl, fun a => ?_⟩
  rw [State.advancePc_view, State.backingWrite_view hm]

end Sys2Proof.Machine

/-! ### The instruction cycle (42_cycle.md) -/

namespace Sys2Proof.Machine

variable {s t : State} {w : Word} {n : Nat}

theorem tableWord_toNat (w : Word) : tableWord 16 w.toNat = w := by
  rw [tableWord, Nat.mod_eq_of_lt w.isLt, BitVec.ofNat_toNat, BitVec.setWidth_eq]

/-- Two bytes placed at `pc` and after it in a running state are the word that the fetch returns. -/
theorem fetch_pokeView_pokeView (hm : s.mem.wf = true) (hterm : s.terminal = false) (hi lo : Byte) :
    (fetch ((s.pokeView (s.pc.setWidth 16) hi).pokeView (s.pc.setWidth 16 + 1#16) lo)).1 = hi ++ lo := by
  have hrun : ((s.pokeView (s.pc.setWidth 16) hi).pokeView (s.pc.setWidth 16 + 1#16) lo).terminal = false := by
    simpa [State.not_terminal_iff] using hterm
  rw [fetch_running hrun]
  simp only [State.pokeView_pc]
  rw [State.pokeView_view_same (State.pokeView_wf hm _ _), State.pokeView_view_other _ _ (indexOf_succ_ne _).symm,
    State.pokeView_view_same hm]

/-- The word placed is the word that the fetch returns (log entry 3). -/
theorem fetch_pokeWord (hm : s.mem.wf = true) (w : Word) : (fetch (s.pokeWord w)).1 = w := by
  rw [State.pokeWord]
  split
  · rw [fetch_pokeView_pokeView (by exact hm) (State.not_terminal_iff.mpr (by simp)), highByte_append_lowByte]
  · next h => rw [fetch_pokeView_pokeView hm (by simpa using h), highByte_append_lowByte]

/-- Settles O5: each of the word's bytes is what the view of its address then shows. -/
theorem fetchWordIsPlaced : Obligations.FetchWordIsPlaced := by
  intro s w hm
  have hw : (fetch (s.withFetchWord 16 w.toNat)).1 = w := by
    rw [State.withFetchWord, tableWord_toNat, fetch_pokeWord hm]
  exact ⟨hw, by rw [step, hw]⟩

/-- Settles O31: the fetch of a running state returns the two views, and a terminal step does nothing. -/
theorem stepRunsDecodedInstruction : Obligations.StepRunsDecodedInstruction := by
  refine ⟨fun s i rest hpc h => ?_, fun s h => step_terminal (State.terminal_iff.mpr h)⟩
  simp only [decodeBytes, Except.ok.injEq, Prod.mk.injEq] at h
  rw [step, ← h.1, fetch_running (State.not_terminal_iff.mpr hpc)]

/-- Settles O32: a step is the fetch and `exec` by definition, and every instruction but HALT0, which only the zero
word decodes to, adds 2 to `pc`. -/
theorem stepFetchesThenExecutes : Obligations.StepFetchesThenExecutes := by
  refine ⟨fun _ _ => rfl, fun s h => ⟨step_zeroWord h, fetch_pc s⟩, fun w s hw => ?_⟩
  obtain ⟨t, ht⟩ := exec_next (decodeWord w) s
  exact ⟨t, ht, by rw [exec_pc ht, if_neg (mt decodeWord_eq_halt0.mp hw)]⟩

/-- A fetch touches no line but those of its two addresses. -/
theorem fetch_line_other {i : LineIndex} (h0 : i ≠ indexOf (s.pc.setWidth 16))
    (h1 : i ≠ indexOf (s.pc.setWidth 16 + 1#16)) : (fetch s).2.line i = s.line i := by
  rcases fetch_state s with ⟨_, e⟩ | ⟨_, e⟩ <;> rw [e]
  rw [State.makeResident_line_other h1, State.makeResident_line_other h0]

/-- Settles O33: the fetch of a running state is two views put side by side and two accesses; a terminal one is
nothing. -/
theorem fetchReadsTwoBytesBigEndian : Obligations.FetchReadsTwoBytesBigEndian := by
  intro s
  refine ⟨fun hpc => ?running, fun hpc => fetch_terminal (State.terminal_iff.mpr hpc), fetch_pc s, fetch_regs s,
    fetch_CF s, fetch_OF s⟩
  case running =>
    have hterm := State.not_terminal_iff.mpr hpc
    obtain ⟨h0, h1⟩ := fetch_hits hterm
    refine ⟨?_, h0, h1, fun i => fetch_line_other⟩
    rw [fetch_running hterm]
    exact append_toNat _ _

/-- Settles O34: a terminal state fetches nothing, so steps and runs leave it; the other operations leave `pc`, or
zero it. -/
theorem terminalStateStays : Obligations.TerminalStateStays := by
  intro s h
  have hterm := State.terminal_iff.mpr h
  refine ⟨fetch_terminal hterm, step_terminal hterm, fun n => run_terminal hterm,
    fun op t ans ho => ⟨fun hinit hreset => ?stays, fun hop => ?leaves⟩, fun hinv => ?pc⟩
  case stays =>
    by_cases hstep : op = .step
    · subst hstep
      rw [hostOp, step_terminal hterm] at ho
      cases ho
      exact hterm
    · by_cases hrun : ∀ n, op ≠ .run n
      · obtain ⟨hpc, _⟩ := hostOp_registerFile ho hinit hreset hstep hrun
        rwa [State.terminal_iff, hpc]
      · push Not at hrun
        obtain ⟨n, rfl⟩ := hrun
        rw [hostOp, run_terminal hterm] at ho
        cases ho
        exact hterm
  case leaves =>
    obtain ⟨hpc, _⟩ := hostOp_init_or_reset ho hop
    simp [State.not_terminal_iff, hpc]
  case pc =>
    have he := hinv.pcEven
    have hb := hinv.pcBound
    rw [memSize_eq] at hb
    omega

/-! ### The ends of a run (42_cycle.md sections 3 and 6) -/

theorem State.HaltedInPlace.running (h : s.HaltedInPlace) : s.terminal = false := by
  obtain ⟨hpc, _⟩ := h
  exact State.not_terminal_iff.mpr (by simpa [memSize_eq] using hpc)

/-- Two bytes are the zero word when both are zero. -/
theorem append_eq_zero_iff (hi lo : Byte) : (hi ++ lo : Word) = 0 ↔ hi = 0 ∧ lo = 0 := by
  refine ⟨fun h => ?_, fun ⟨h, h'⟩ => by rw [h, h']; rfl⟩
  have h := congrArg BitVec.toNat h
  rw [show BitVec.toNat (w := 16) (hi ++ lo) = _ from append_toNat hi lo] at h
  have h : hi.toNat * 2 ^ 8 + lo.toNat = 0 := h
  exact ⟨BitVec.eq_of_toNat_eq (by simp; omega), BitVec.eq_of_toNat_eq (by simp; omega)⟩

/-- A running state is halted in place exactly when it fetches the zero word (rule R146). -/
theorem haltedInPlace_iff_fetch (hterm : s.terminal = false) : s.HaltedInPlace ↔ (fetch s).1 = 0 := by
  have hpc := State.not_terminal_iff.mp hterm
  have hpc' : s.pc.toNat < Config.memSize - 1 := by rw [memSize_eq]; omega
  rw [fetch_running hterm, append_eq_zero_iff, State.HaltedInPlace]
  exact and_iff_right hpc'

/-- A fetch leaves the views of its two bytes. -/
theorem fetch_views (hterm : s.terminal = false) :
    (fetch s).2.view (s.pc.setWidth 16) = s.view (s.pc.setWidth 16) ∧
      (fetch s).2.view (s.pc.setWidth 16 + 1#16) = s.view (s.pc.setWidth 16 + 1#16) := by
  have hpc := State.not_terminal_iff.mp hterm
  have hn : (s.pc.setWidth 16 : Addr).toNat < 65535 := by rw [BitVec.toNat_setWidth]; omega
  have hne := indexOf_succ_ne (s.pc.setWidth 16)
  have hgroup := succ_sameTag_or_otherGroup _ hn
  rw [fetch_running hterm]
  constructor
  · rw [State.makeResident_view_other hne.symm (hgroup.imp Eq.symm Ne.symm), State.makeResident_view_same]
  · rw [State.makeResident_view_same, State.makeResident_view_other hne hgroup]

/-- A fetch leaves a core halted in place so, since it leaves `pc` and the two views. -/
theorem fetch_haltedInPlace (h : s.HaltedInPlace) : (fetch s).2.HaltedInPlace := by
  obtain ⟨h0, h1⟩ := fetch_views h.running
  simpa only [State.HaltedInPlace, fetch_pc, h0, h1] using h

theorem step_of_haltedInPlace (h : s.HaltedInPlace) : step s = .next (fetch s).2 :=
  step_zeroWord ((haltedInPlace_iff_fetch h.running).mp h)

/-- A core halted in place whose two addresses hit is a fixed point: its fetch is all it does, and that reads only. -/
theorem State.HaltedInPlace.fixedPoint (h : s.HaltedInPlace) (h0 : s.hit (s.pc.setWidth 16) = true)
    (h1 : s.hit (s.pc.setWidth 16 + 1#16) = true) : s.FixedPoint := by
  rw [State.FixedPoint, step_of_haltedInPlace h, fetch_of_hit h0 h1]

/-- Settles O35: the step is the fetch, which leaves `pc`, registers, flags and the two views, and after which both
addresses hit. -/
theorem haltedInPlaceReachesFixedPoint : Obligations.HaltedInPlaceReachesFixedPoint := by
  intro s h
  obtain ⟨h0, h1⟩ := fetch_hits h.running
  have hhalted := fetch_haltedInPlace h
  exact ⟨_, step_of_haltedInPlace h, fetch_pc s, fetch_regs s, fetch_CF s, fetch_OF s, hhalted,
    hhalted.fixedPoint (by rwa [fetch_pc]) (by rwa [fetch_pc])⟩

/-- A running fixed point fetched the zero word, since any other word moves `pc`; so its step is its fetch, and both
addresses hit. -/
theorem State.FixedPoint.halted (h : s.FixedPoint) (hterm : s.terminal = false) :
    s.HaltedInPlace ∧ s.hit (s.pc.setWidth 16) = true ∧ s.hit (s.pc.setWidth 16 + 1#16) = true := by
  have hzero : (fetch s).1 = 0 := by
    by_contra hw
    have hpc := step_pc h
    rw [if_neg (show ¬ (fetch s).1 = 0x0000#16 from hw)] at hpc
    simp at hpc
  have hs : (fetch s).2 = s := Host.Outcome.next.inj ((step_zeroWord hzero).symm.trans h)
  have hhits := fetch_hits hterm
  rw [hs] at hhits
  exact ⟨(haltedInPlace_iff_fetch hterm).mpr hzero, hhits⟩

/-- Settles O36: the two kinds of fixed points by the terminal test. -/
theorem fixedPointsAreTheEnds : Obligations.FixedPointsAreTheEnds := by
  intro s
  rw [← State.terminal_iff]
  refine ⟨fun h => ?_, ?_⟩
  · cases hterm : s.terminal
    · exact .inr (h.halted hterm)
    · exact .inl rfl
  · rintro (hterm | ⟨h, h0, h1⟩)
    · exact step_terminal hterm
    · exact h.fixedPoint h0 h1

/-! ### Runs (42_cycle.md sections 4 and 6) -/

/-- A run adds 2 to `pc` at most once a step. -/
theorem run_pc (h : run n s = .next t) : ∃ k, k ≤ n ∧ t.pc.toNat = s.pc.toNat + 2 * k := by
  induction n generalizing s with
  | zero =>
    cases h
    exact ⟨0, le_rfl, rfl⟩
  | succ n ih =>
    cases hterm : s.terminal
    · obtain ⟨u, hu⟩ := step_next s
      rw [run_succ hterm hu] at h
      obtain ⟨k, hk, hpc⟩ := ih h
      rcases step_pc_cases hu with e | ⟨_, e⟩
      · exact ⟨k, by omega, by rw [hpc, e]⟩
      · exact ⟨k + 1, by omega, by omega⟩
    · rw [run_terminal hterm] at h
      cases h
      exact ⟨0, by omega, rfl⟩

/-- Settles O37: a step by its cases, a run by induction over its length, the host's operations by the laws of the
register file. -/
theorem pcChangesOnlyForward : Obligations.PcChangesOnlyForward := by
  refine ⟨fun s t hs => (step_pc_cases hs).imp_right And.right, fun n s t => run_pc,
    fun op s t ans ho => ⟨fun hop => ?_, fun hinit hreset hstep hrun => ?_⟩⟩
  · obtain ⟨hpc, _⟩ := hostOp_init_or_reset ho hop
    exact hpc
  · obtain ⟨hpc, _⟩ := hostOp_registerFile ho hinit hreset hstep hrun
    exact hpc

theorem core_run_succ (hs : step s = .next t) : Sys2Proof.core.run (n + 1) s = Sys2Proof.core.run n t := by
  have hcore : Sys2Proof.core.step s = .next t := hs
  simp only [Host.Core.run, hcore]

/-- Steps of the interface leave a terminal state. -/
theorem core_run_terminal (hterm : s.terminal = true) : Sys2Proof.core.run n s = .next s := by
  induction n with
  | zero => rfl
  | succ n ih => rw [core_run_succ (step_terminal hterm), ih]

/-- The loop's terminal test changes nothing, since a terminal step does nothing. -/
theorem run_eq_core_run (n : Nat) (s : State) : run n s = Sys2Proof.core.run n s := by
  induction n generalizing s with
  | zero => rfl
  | succ n ih =>
    cases hterm : s.terminal
    · obtain ⟨u, hu⟩ := step_next s
      rw [run_succ hterm hu, core_run_succ hu, ih]
    · exact (run_terminal hterm).trans (core_run_terminal hterm).symm

theorem run_add {m : Nat} (h : run m s = .next t) : run (m + n) s = run n t := by
  induction m generalizing s with
  | zero =>
    cases h
    rw [Nat.zero_add]
  | succ m ih =>
    cases hterm : s.terminal
    · obtain ⟨u, hu⟩ := step_next s
      rw [run_succ hterm hu] at h
      rw [Nat.add_right_comm, run_succ hterm hu, ih h]
    · rw [run_terminal hterm] at h
      cases h
      rw [run_terminal hterm, run_terminal hterm]

/-- Settles O38: both by induction over the number of steps; at a terminal state every side stops. -/
theorem runIsConsecutiveSteps : Obligations.RunIsConsecutiveSteps :=
  ⟨run_eq_core_run, fun _ _ _ _ => run_add⟩

end Sys2Proof.Machine

/-! ### Program load, boot and snapshots (70_reset_and_hazards.md sections 2 to 5) -/

namespace Sys2Proof.Machine

variable {s t : State} {l : List Byte}

/-- A load changes nothing but the backing store. -/
theorem State.loadFrom_eq {k : Nat} : s.loadFrom k l = { s with mem := (s.loadFrom k l).mem } := by
  induction l generalizing k s with
  | nil => rfl
  | cons b l ih => rw [State.loadFrom, ih]; rfl

theorem State.loadProgram_of_le (h : l.length ≤ 65536) : s.loadProgram l = (true, s.loadFrom 0 l) := by
  rw [State.loadProgram, memSize_eq, if_neg (Nat.not_lt.mpr h)]

theorem State.loadProgram_of_gt (h : 65536 < l.length) : s.loadProgram l = (false, s) := by
  rw [State.loadProgram, memSize_eq, if_pos h]

/-- A program loaded at 0 lies there byte by byte, and above it is what was there. -/
theorem State.loadFrom_zero_read (hm : s.mem.wf = true) (h : l.length ≤ 65536) (a : Addr) :
    (s.loadFrom 0 l).mem.read a = if a.toNat < l.length then l.getD a.toNat 0 else s.mem.read a := by
  rw [State.loadFrom_read hm (by omega)]
  simp

/-- Loading the same program again changes nothing: the two memories are canonical and read the same. -/
theorem State.loadFrom_loadFrom (hm : s.mem.wf = true) (h : l.length ≤ 65536) :
    (s.loadFrom 0 l).loadFrom 0 l = s.loadFrom 0 l := by
  have hm' : (s.loadFrom 0 l).mem.wf = true := State.loadFrom_wf hm
  have hmem : ((s.loadFrom 0 l).loadFrom 0 l).mem = (s.loadFrom 0 l).mem := by
    refine Memory.eq_of_read (State.loadFrom_wf hm') hm' fun a => ?_
    rw [State.loadFrom_zero_read hm' h, State.loadFrom_zero_read hm h]
    split <;> rfl
  rw [State.loadFrom_eq, hmem]

/-- Settles O47: the length test, and what the load leaves at each address. -/
theorem loadProgramCopiesVerbatim : Obligations.LoadProgramCopiesVerbatim := by
  refine fun bytes s => ⟨fun h => ?_, fun h hm => ⟨s.loadFrom 0 bytes, ?_, State.loadFrom_zero_read hm h,
    State.loadFrom_cache, State.loadFrom_regs, State.loadFrom_pc, State.loadFrom_CF, State.loadFrom_OF⟩⟩
  · rw [hostOp, State.loadProgram_of_gt h]
    rfl
  · rw [hostOp, State.loadProgram_of_le h]
    rfl

/-- In a state whose lines are all invalid the view is the backing store. -/
theorem State.view_of_invalid (h : ∀ k : LineIndex, (s.line k).valid = false) (a : Addr) : s.view a = s.mem.read a :=
  State.view_of_miss (by simp [State.hit, h])

/-! The state after `init` and `load_program` is the reset state with the program in memory. -/

theorem State.reset_loadFrom_line {k : Nat} (i : LineIndex) : (State.reset.loadFrom k l).line i = Line.init := by
  rw [State.line, State.loadFrom_cache]
  exact State.reset_line i

theorem State.reset_loadFrom_inv {k : Nat} : (State.reset.loadFrom k l).Inv :=
  State.inv_iff.mpr ⟨State.loadFrom_wf State.reset_inv.memWf,
    State.noDirty_reset.dirtyValid.of_cache_eq State.loadFrom_cache, .of_pc_eq_zero State.loadFrom_pc⟩

/-- Every view is the program's byte, and zero beyond the program. -/
theorem State.reset_loadFrom_view (h : l.length ≤ 65536) (a : Addr) :
    (State.reset.loadFrom 0 l).view a = l.getD a.toNat 0 := by
  rw [State.view_of_invalid (fun k => by rw [State.reset_loadFrom_line]; rfl),
    State.loadFrom_zero_read State.reset_inv.memWf h]
  split
  · rfl
  · next ha =>
    rw [List.getD_eq_default _ _ (Nat.not_lt.mp ha)]
    rfl

theorem hostRun_init_loadProgram (h : l.length ≤ 65536) (s : State) :
    hostRun [.init, .loadProgram l] s = .next (State.reset.loadFrom 0 l) := by
  simp only [hostRun, hostOp, State.hostInit_eq, State.loadProgram_of_le h]

/-- Settles O48: the state is the reset state with the program in memory; no line is valid, so the first fetch reads
the program's first two bytes. -/
theorem bootFetchesTheProgram : Obligations.BootFetchesTheProgram := by
  intro b0 b1 bytes s hlen
  have hview := State.reset_loadFrom_view (l := b0 :: b1 :: bytes) hlen
  have hpc : (State.reset.loadFrom 0 (b0 :: b1 :: bytes)).pc = 0 := State.loadFrom_pc
  refine ⟨_, hostRun_init_loadProgram (l := b0 :: b1 :: bytes) hlen s, State.reset_loadFrom_inv, hpc,
    fun i => ?registers, State.loadFrom_CF, State.loadFrom_OF, fun k => ?lines, hview, ?firstStep⟩
  case registers =>
    rw [State.readReg, State.loadFrom_regs]
    exact State.hostReset_readReg State.reset i
  case lines =>
    rw [State.reset_loadFrom_line]
    rfl
  case firstStep =>
    rw [step, fetch_running (State.not_terminal_iff.mpr (by rw [hpc]; decide)), hview, hview, hpc]
    rfl

/-! ### Doing an operation twice (70_reset_and_hazards.md section 2) -/

theorem State.loadProgram_loadProgram (hm : s.mem.wf = true) :
    (s.loadProgram l).2.loadProgram l = s.loadProgram l := by
  by_cases h : l.length ≤ 65536
  · rw [State.loadProgram_of_le h, State.loadProgram_of_le h, State.loadFrom_loadFrom hm h]
  · rw [State.loadProgram_of_gt (Nat.not_le.mp h), State.loadProgram_of_gt (Nat.not_le.mp h)]

/-- Two states are equal when their register files, lines and memories are. -/
theorem State.eq_of_line (hpc : s.pc = t.pc) (hr : s.regs = t.regs) (hc : s.CF = t.CF) (ho : s.OF = t.OF)
    (hl : ∀ i, s.line i = t.line i) (hm : s.mem = t.mem) : s = t := by
  have hcache := State.cache_ext hl
  cases s
  cases t
  simp_all

/-- A second flush finds no dirty line to write back and no valid line to invalidate. -/
theorem State.cacheFlush_cacheFlush (size : Nat) (s : State) :
    (s.cacheFlush size).cacheFlush size = s.cacheFlush size := by
  refine State.eq_of_line (by simp) (by simp) (by simp) (by simp) (fun i => by simp) ?_
  rw [State.cacheFlush_mem, State.drain_clean (State.noDirty_cacheFlush size s)]

/-- A state is a fixed point exactly when a run has ended there (rule R151). -/
theorem State.fixedPoint_iff_ended : s.FixedPoint ↔ s.Ended := by
  refine ⟨fun h => ?_, ?_⟩
  · cases hterm : s.terminal
    · exact .inr ⟨(h.halted hterm).1, h⟩
    · exact .inl hterm
  · rintro (hterm | ⟨_, h⟩)
    · exact step_terminal hterm
    · exact h

/-- Settles O45: `init` and `reset` answer constants of what they cover, the flush and the load have nothing left to
do, and a further step changes nothing exactly at an end. -/
theorem operationsAreIdempotent : Obligations.OperationsAreIdempotent :=
  ⟨fun _ => ⟨rfl, rfl⟩, State.cacheFlush_cacheFlush Config.memSize, fun _ _ => State.loadProgram_loadProgram,
    fun _ _ => ⟨rfl, rfl, rfl, rfl⟩, fun _ _ _ => State.fixedPoint_iff_ended,
    fun _ _ _ _ h ho => hostOp_dirtyValid h ho⟩

/-- Settles O46: `init` answers the reset state, whose fields are zero, and `reset` zeroes the register file. -/
theorem initAndResetValues : Obligations.InitAndResetValues := by
  refine ⟨fun _ => rfl, ⟨rfl, State.hostReset_readReg State.reset, rfl, rfl, fun _ => rfl, fun k o => ?line⟩,
    fun s => ⟨s.hostReset, rfl, rfl, s.hostReset_readReg, rfl, rfl, rfl, rfl⟩⟩
  case line =>
    rw [State.reset_line]
    refine ⟨rfl, rfl, rfl, ?_⟩
    revert o
    decide

/-! ### Snapshots (70_reset_and_hazards.md section 4) -/

/-- Entry `k` of the register file is the register of index `k + 1` (rule R11). -/
theorem State.regs_getElem (s : State) {k : Nat} (h : k < 7) : s.regs[k] = s.readReg (BitVec.ofNat 4 (k + 1)) := by
  have hk : (BitVec.ofNat 4 (k + 1)).toNat = k + 1 := by rw [BitVec.toNat_ofNat]; omega
  have hreg : isRegister (BitVec.ofNat 4 (k + 1)) = true := isRegister_eq_true_iff.mpr (by omega)
  simp [State.readReg, hreg, hk, Vector.getD, h]

theorem State.cache_getElem (s : State) {k : Nat} (h : k < 64) : s.cache[k] = s.line (BitVec.ofNat 6 k) := by
  simp [State.line, Nat.mod_eq_of_lt h]

/-- Settles O49: the snapshots answer the state's own two vectors. -/
theorem snapshotsArePure : Obligations.SnapshotsArePure := fun s =>
  ⟨⟨s.regs, rfl, fun _ => s.regs_getElem⟩, ⟨s.cache, rfl, fun _ => s.cache_getElem⟩⟩

/-- The addresses of a range that exist are its first ones. -/
theorem filter_range_add_lt (a n size : Nat) :
    (List.range n).filter (fun k => decide (a + k < size)) = List.range (min n (size - a)) := by
  induction n with
  | zero => rw [Nat.zero_min]; rfl
  | succ n ih =>
    rw [List.range_succ, List.filter_append, ih]
    by_cases h : a + n < size
    · rw [show min n (size - a) = n by omega, show min (n + 1) (size - a) = n + 1 by omega, List.range_succ]
      simp [h]
    · rw [show min (n + 1) (size - a) = min n (size - a) by omega]
      simp [h]

theorem State.memSnapshot_eq (a n : Nat) (s : State) :
    s.memSnapshot a n = (List.range (min n (65536 - a))).map fun k => s.mem.read (BitVec.ofNat 16 (a + k)) := by
  rw [State.memSnapshot, filter_range_add_lt, memSize_eq]

/-- Settles O50: the existing addresses of the range are its first `min n (65536 - a)`, each read raw. -/
theorem memorySnapshotIsRaw : Obligations.MemorySnapshotIsRaw := by
  intro a n s
  refine ⟨_, rfl, ?_, fun k h => ?_⟩
  · rw [State.memSnapshot_eq, List.length_map, List.length_range]
  · simp only [State.memSnapshot_eq, List.getElem_map, List.getElem_range]

end Sys2Proof.Machine
